-- ==== Sys2Proof/Word.lean ====
section
/-! DEFINITION. The data types the whole model speaks of: bytes and words, register indices, the codec value, the
modes, the instruction formats and the failures. Their operations are in Sys2Proof/Machine/. -/

namespace Sys2Proof

/-- A byte (00_scope.md R8). -/
abbrev Byte := BitVec 8

/-- An address register: PC, SP and FP are unsigned 32-bit registers (10_state.md R36, R37). -/
abbrev Word := BitVec 32

/-- The 24-bit address field of format D (30_encoding.md R74). -/
abbrev Addr24 := BitVec 24

/-- A register index: every value 0 to 15 names a register (10_state.md R20, 30_encoding.md R75). -/
abbrev Reg := Fin 16

/-- A codec value: "exactly 8 bits, two 4-bit fields" (40_codec.md R100). `rho` is kept as its raw two's-complement
pattern and read as `rho.toInt`, in [-8, 7]; `theta` is read as `theta.toNat`, in [0, 15]. -/
structure CodecValue where
  rho : BitVec 4
  theta : BitVec 4
deriving DecidableEq, Repr

/-- What an ALU function returns: the codec value, and the saturation bit of 40_codec.md R102. -/
abbrev CodecResult := CodecValue × Bool

/-- The five modes (10_state.md R24). -/
inductive Mode where
  | m8
  | m16
  | m32
  | m64
  | m128
deriving DecidableEq, Repr

/-- The four instruction layouts (30_encoding.md R70). -/
inductive Format where
  | a
  | b
  | c
  | d
deriving DecidableEq, Repr

/-- The failures and what each records (60_exceptions.md R260). -/
inductive Failure where
  /-- Decode: the first byte is in no row of the opcode table. -/
  | invalidOpcode (byte : Byte)
  /-- Decode: fewer bytes available than the format needs, including none. -/
  | instructionTruncated (expected found : Nat)
  /-- `ROOT` with n = 0. -/
  | rootByZero
  /-- A mode command with m = 5 to 15, or `HLOAD` with a mode byte above 4; it records the code or byte. -/
  | invalidMode (code : Nat)
  /-- `HLOAD` with fewer than 30 bytes. -/
  | invalidState
deriving DecidableEq, Repr

end Sys2Proof
end

