-- ==== Sys2Proof/Config.lean ====
section
/-! DEFINITION. The block's fixed parameters (00_scope.md R6) and the form of its open ones (R7). No open parameter
affects the block's state, so there is no opaque constant here: the Cartesian functions take the open parameters as
arguments, as R7 asks, and CODE is held in State. -/

namespace Sys2Proof.Config

/-- The greatest CODE_LEN: addresses are 32 bits wide (00_scope.md R6, 20_memory.md R51). -/
def maxCodeLen : Nat := 2 ^ 32

/-- One fetch reads at most four bytes, the longest format (20_memory.md R54, 30_encoding.md R70). -/
def maxInstrBytes : Nat := 4

/-- The length of the state record (44_host_port.md R244). -/
def recordLen : Nat := 30

/-- What an address below CODE_LEN reads as when the list of cells does not name it. A byte of CODE that is 0x00 is not
listed and every other byte is, so each byte array has exactly one list (DESIGN CHOICE, safe: log entry 4). -/
def unlistedByte : Byte := 0

/-- NULL_CARTESIAN (00_scope.md R7, 40_codec.md R112): NULL converts to exactly 0, or to e^-8. -/
inductive NullCartesian where
  | exactZero
  | expMinusEight
deriving DecidableEq, Repr

end Sys2Proof.Config
end

