-- ==== Sys2Proof/Syntax.lean ====
section
/-! DEFINITION. The instructions: one constructor per row of spec/opcode_table.json, in the table's order
(30_encoding.md R76), with the operands of R75. -/

namespace Sys2Proof

/-- The 21 instructions. A register operand is an index; `m` is the 4-bit mode code, of which 5 to 15 fail only when
executed (R75); `n` is the unsigned exponent or degree 0 to 255; `imm` a packed codec byte; `mask` a mask of STATUS
bits; `target` the 24-bit address. -/
inductive Instr where
  | nop
  | halt
  | conj (rd : Reg)
  | inv (rd : Reg)
  | prom (m : Nat)
  | demt (m : Nat)
  | demx (m : Nat)
  | dema (m : Nat)
  | demm (m : Nat)
  | mov (rd rs : Reg)
  | mul (rd rs : Reg)
  | div (rd rs : Reg)
  | xor (rd rs : Reg)
  | mix (rd rs : Reg)
  | ldi (rd : Reg) (imm : Byte)
  | pow (rd : Reg) (n : Nat)
  | root (rd : Reg) (n : Nat)
  | clrf (mask : Byte)
  | jmp (target : Addr24)
  | jz (target : Addr24)
  | jnz (target : Addr24)
deriving DecidableEq, Repr

end Sys2Proof
end

