-- ==== Sys2Proof/WellFormed.lean ====
section
/-! DEFINITION. Which instructions have an encoding: the operands that are plain numbers fit their fields
(30_encoding.md R75). Register, byte and address operands fit by their types. -/

namespace Sys2Proof

/-- A mode code fits the 4-bit field of format B. -/
def modeFieldFits (m : Nat) : Bool := decide (m < 16)

/-- An exponent or root degree fits the 8-bit immediate of format C. -/
def exponentFits (n : Nat) : Bool := decide (n < 256)

/-- The legal instructions of 30_encoding.md R81. -/
def Instr.wf : Instr → Bool
  | .nop => true
  | .halt => true
  | .conj _ => true
  | .inv _ => true
  | .prom m => modeFieldFits m
  | .demt m => modeFieldFits m
  | .demx m => modeFieldFits m
  | .dema m => modeFieldFits m
  | .demm m => modeFieldFits m
  | .mov _ _ => true
  | .mul _ _ => true
  | .div _ _ => true
  | .xor _ _ => true
  | .mix _ _ => true
  | .ldi _ _ => true
  | .pow _ n => exponentFits n
  | .root _ n => exponentFits n
  | .clrf _ => true
  | .jmp _ => true
  | .jz _ => true
  | .jnz _ => true

/-- The instructions an assembler can write: the mode token of a mode command names one of the five modes, codes 0 to
4 (30_encoding.md R83). -/
def Instr.assemblable : Instr → Bool
  | .nop => true
  | .halt => true
  | .conj _ => true
  | .inv _ => true
  | .prom m => decide (m ≤ 4)
  | .demt m => decide (m ≤ 4)
  | .demx m => decide (m ≤ 4)
  | .dema m => decide (m ≤ 4)
  | .demm m => decide (m ≤ 4)
  | .mov _ _ => true
  | .mul _ _ => true
  | .div _ _ => true
  | .xor _ _ => true
  | .mix _ _ => true
  | .ldi _ _ => true
  | .pow _ n => exponentFits n
  | .root _ n => exponentFits n
  | .clrf _ => true
  | .jmp _ => true
  | .jz _ => true
  | .jnz _ => true

end Sys2Proof
end

