-- ==== Sys2Proof/Decode.lean ====
section
/-! DEFINITION. The decoder contract of 30_encoding.md R80 over the opcode map of R76, then the encoder of R81, both
written from the byte patterns of R77. -/

namespace Sys2Proof

/-- The size of a format in bytes (30_encoding.md R70). -/
def Format.size : Format → Nat
  | .a => 1
  | .b => 2
  | .c => 3
  | .d => 4

/-- Bits 7:4 of a byte, as an index. -/
def hiNibble (b : Byte) : Fin 16 := ⟨b.toNat / 16, by have := b.isLt; omega⟩

/-- Bits 3:0 of a byte, as an index. -/
def loNibble (b : Byte) : Fin 16 := ⟨b.toNat % 16, by omega⟩

/-- `{hi, lo}`: two nibbles as one byte, the first in bits 7:4. -/
def joinNibbles (hi lo : Nat) : Byte := BitVec.ofNat 8 (16 * (hi % 16) + lo % 16)

/-- `{byte3, byte2, byte1}`, little-endian (30_encoding.md R74). -/
def joinAddr (b1 b2 b3 : Byte) : Addr24 := b3 ++ b2 ++ b1

/-- Byte `k` of a 24-bit field, the least significant first. -/
def addrByte (a : Addr24) (k : Nat) : Byte := a.extractLsb' (8 * k) 8

/-- Byte `k` of a list. Callers ask only for bytes the list has. -/
def byteAt (bytes : List Byte) (k : Nat) : Byte := bytes.getD k 0

/-- The fields of an instruction's bytes, by position (30_encoding.md R71 to R74). Each format reads the ones it has. -/
structure Fields where
  /-- byte1[7:4]: `r` of format B, `ra` of format C. -/
  first : Fin 16
  /-- byte1[3:0]: `rb` of format C. -/
  second : Fin 16
  /-- byte 2 of format C. -/
  imm8 : Byte
  /-- bytes 1 to 3 of format D. -/
  a24 : Addr24
deriving DecidableEq, Repr

/-- The fields of a byte string, all positions at once. -/
def fieldsOf (bytes : List Byte) : Fields :=
  { first := hiNibble (byteAt bytes 1)
    second := loNibble (byteAt bytes 1)
    imm8 := byteAt bytes 2
    a24 := joinAddr (byteAt bytes 1) (byteAt bytes 2) (byteAt bytes 3) }

/-- A row of the opcode map (30_encoding.md R76): the opcode byte, its format, and the instruction its fields make. -/
structure OpcodeRow where
  opcode : Byte
  format : Format
  build : Fields → Instr

/-- The opcode map of 30_encoding.md R76, rows in its order. Fields that a row does not use are the reserved ones of
R77, so their values are ignored (R82). -/
def opcodeTable : List OpcodeRow :=
  [ ⟨0x00, .a, fun _ => .nop⟩,
    ⟨0x01, .a, fun _ => .halt⟩,
    ⟨0x10, .b, fun f => .conj f.first⟩,
    ⟨0x11, .b, fun f => .inv f.first⟩,
    ⟨0x18, .b, fun f => .prom f.first⟩,
    ⟨0x19, .b, fun f => .demt f.first⟩,
    ⟨0x1A, .b, fun f => .demx f.first⟩,
    ⟨0x1B, .b, fun f => .dema f.first⟩,
    ⟨0x1C, .b, fun f => .demm f.first⟩,
    ⟨0x20, .c, fun f => .mov f.first f.second⟩,
    ⟨0x21, .c, fun f => .mul f.first f.second⟩,
    ⟨0x22, .c, fun f => .div f.first f.second⟩,
    ⟨0x23, .c, fun f => .xor f.first f.second⟩,
    ⟨0x24, .c, fun f => .mix f.first f.second⟩,
    ⟨0x30, .c, fun f => .ldi f.first f.imm8⟩,
    ⟨0x31, .c, fun f => .pow f.first f.imm8.toNat⟩,
    ⟨0x32, .c, fun f => .root f.first f.imm8.toNat⟩,
    ⟨0x38, .c, fun f => .clrf f.imm8⟩,
    ⟨0x40, .d, fun f => .jmp f.a24⟩,
    ⟨0x41, .d, fun f => .jz f.a24⟩,
    ⟨0x42, .d, fun f => .jnz f.a24⟩ ]

/-- The row of an opcode byte; none for the 235 unassigned bytes (30_encoding.md R79). -/
def opcodeRow (op : Byte) : Option OpcodeRow := opcodeTable.find? fun row => row.opcode == op

/-- `decode(bytes, avail)` of 30_encoding.md R80, with `avail` the length of the list. The opcode is looked up before
the length is checked, and the bytes after the format's size are not read. -/
def decode (bytes : List Byte) : Except Failure Instr :=
  match bytes with
  | [] => .error (.instructionTruncated 1 0)
  | op :: rest =>
    match opcodeRow op with
    | none => .error (.invalidOpcode op)
    | some row =>
      if rest.length + 1 < row.format.size then
        .error (.instructionTruncated row.format.size (rest.length + 1))
      else .ok (row.build (fieldsOf (op :: rest)))

/-- The format of an instruction (30_encoding.md R76). -/
def Instr.format : Instr → Format
  | .nop => .a
  | .halt => .a
  | .conj _ => .b
  | .inv _ => .b
  | .prom _ => .b
  | .demt _ => .b
  | .demx _ => .b
  | .dema _ => .b
  | .demm _ => .b
  | .mov _ _ => .c
  | .mul _ _ => .c
  | .div _ _ => .c
  | .xor _ _ => .c
  | .mix _ _ => .c
  | .ldi _ _ => .c
  | .pow _ _ => .c
  | .root _ _ => .c
  | .clrf _ => .c
  | .jmp _ => .d
  | .jz _ => .d
  | .jnz _ => .d

/-- The size of an instruction in bytes. -/
def Instr.size (i : Instr) : Nat := i.format.size

/-- Format B: the first nibble in bits 7:4, the reserved nibble 0 (30_encoding.md R72, R82). -/
def encodeB (op : Byte) (r : Nat) : List Byte := [op, joinNibbles r 0]

/-- Format C: two nibbles and the immediate byte (30_encoding.md R73). -/
def encodeC (op : Byte) (ra rb : Nat) (imm8 : Byte) : List Byte := [op, joinNibbles ra rb, imm8]

/-- Format D: the 24-bit field, least significant byte first (30_encoding.md R74). -/
def encodeD (op : Byte) (a : Addr24) : List Byte := [op, addrByte a 0, addrByte a 1, addrByte a 2]

/-- The bytes of an instruction, reserved fields 0 (30_encoding.md R77, R81). -/
def encode : Instr → List Byte
  | .nop => [0x00]
  | .halt => [0x01]
  | .conj rd => encodeB 0x10 rd
  | .inv rd => encodeB 0x11 rd
  | .prom m => encodeB 0x18 m
  | .demt m => encodeB 0x19 m
  | .demx m => encodeB 0x1A m
  | .dema m => encodeB 0x1B m
  | .demm m => encodeB 0x1C m
  | .mov rd rs => encodeC 0x20 rd rs 0
  | .mul rd rs => encodeC 0x21 rd rs 0
  | .div rd rs => encodeC 0x22 rd rs 0
  | .xor rd rs => encodeC 0x23 rd rs 0
  | .mix rd rs => encodeC 0x24 rd rs 0
  | .ldi rd imm => encodeC 0x30 rd 0 imm
  | .pow rd n => encodeC 0x31 rd 0 (BitVec.ofNat 8 n)
  | .root rd n => encodeC 0x32 rd 0 (BitVec.ofNat 8 n)
  | .clrf mask => encodeC 0x38 0 0 mask
  | .jmp a => encodeD 0x40 a
  | .jz a => encodeD 0x41 a
  | .jnz a => encodeD 0x42 a

/-- The reserved fields of an instruction's bytes are all 0, by the byte patterns of 30_encoding.md R77: what an encoder
writes (R82). Read on the first `size` bytes of a string that decodes. -/
def reservedZero (i : Instr) (bytes : List Byte) : Bool :=
  match i with
  | .nop => true
  | .halt => true
  | .conj _ => loNibble (byteAt bytes 1) == 0
  | .inv _ => loNibble (byteAt bytes 1) == 0
  | .prom _ => loNibble (byteAt bytes 1) == 0
  | .demt _ => loNibble (byteAt bytes 1) == 0
  | .demx _ => loNibble (byteAt bytes 1) == 0
  | .dema _ => loNibble (byteAt bytes 1) == 0
  | .demm _ => loNibble (byteAt bytes 1) == 0
  | .mov _ _ => byteAt bytes 2 == 0
  | .mul _ _ => byteAt bytes 2 == 0
  | .div _ _ => byteAt bytes 2 == 0
  | .xor _ _ => byteAt bytes 2 == 0
  | .mix _ _ => byteAt bytes 2 == 0
  | .ldi _ _ => loNibble (byteAt bytes 1) == 0
  | .pow _ _ => loNibble (byteAt bytes 1) == 0
  | .root _ _ => loNibble (byteAt bytes 1) == 0
  | .clrf _ => byteAt bytes 1 == 0
  | .jmp _ => true
  | .jz _ => true
  | .jnz _ => true

/-- The bytes of a word numbered as spec/opcode_table.json numbers it: the first byte is bits 7..0, every bit at or
above `nbits` is 0, and the string is as long as the longest format. -/
def tableBytes (nbits w : Nat) : List Byte :=
  (List.range Config.maxInstrBytes).map fun k => BitVec.ofNat 8 ((w % 2 ^ nbits) >>> (8 * k))

/-- What the decoder reads from a word of the opcode table. -/
def decodeTableWord (nbits w : Nat) : Option Instr := (decode (tableBytes nbits w)).toOption

end Sys2Proof
end

