-- ==== Sys2Proof/Machine/Codec.lean ====
section
/-! DEFINITION. The codec value and its algebra (spec/40_codec.md): construction, packing, the named constants, the phase
lookup and the eight ALU functions. Every function computes with exact integers and clamps or reduces once, at the end
(R122). -/

namespace Sys2Proof

/-- `clamp(x) = max(-8, min(7, x))` (00_scope.md R9). -/
def clamp (x : Int) : Int := max (-8) (min 7 x)

/-- The exact rho lies outside [-8, 7], so construction clamps it (40_codec.md R102). -/
def sat (r : Int) : Bool := decide (r < -8) || decide (7 < r)

/-- `cv(r, t)`: rho clamped, theta taken modulo 16 (40_codec.md R101). -/
def cv (r t : Int) : CodecValue :=
  { rho := BitVec.ofInt 4 (clamp r), theta := BitVec.ofInt 4 (t % 16) }

/-- `rhaz(p / q)` for a positive `q`: the nearest integer, halves away from zero (00_scope.md R9). -/
def rhazDiv (p : Int) (q : Nat) : Int :=
  if 0 ≤ p then (2 * p + q) / (2 * q) else -((2 * -p + q) / (2 * q))

/-- `pack(v) = {rho[3:0], theta[3:0]}` (40_codec.md R103). -/
def pack (v : CodecValue) : Byte := v.rho ++ v.theta

/-- `unpack(b) = (rho = sext_4(b[7:4]), theta = b[3:0])` (40_codec.md R104). The sign is in the reading `rho.toInt`. -/
def unpack (b : Byte) : CodecValue :=
  { rho := b.extractLsb' 4 4, theta := b.extractLsb' 0 4 }

/-! The named constants (40_codec.md R105). -/

def CodecValue.null : CodecValue := cv (-8) 0
def CodecValue.one : CodecValue := cv 0 0
def CodecValue.i : CodecValue := cv 0 4
def CodecValue.negOne : CodecValue := cv 0 8
def CodecValue.negI : CodecValue := cv 0 12
def CodecValue.max : CodecValue := cv 7 0

/-- The phase lookup in half-degrees, `45 · theta`, an unsigned 10-bit integer (40_codec.md R108, R109). -/
def hdeg (v : CodecValue) : BitVec 10 := BitVec.ofNat 10 (45 * v.theta.toNat)

/-- `multiply` (40_codec.md R114). -/
def multiply (a b : CodecValue) : CodecResult :=
  let r := a.rho.toInt + b.rho.toInt
  (cv r (a.theta.toNat + b.theta.toNat), sat r)

/-- `divide` (40_codec.md R115). No divisor is special. -/
def divide (a b : CodecValue) : CodecResult :=
  let r := a.rho.toInt - b.rho.toInt
  (cv r (a.theta.toNat - b.theta.toNat), sat r)

/-- `power` (40_codec.md R116). -/
def power (a : CodecValue) (n : Nat) : CodecResult :=
  let r := a.rho.toInt * n
  (cv r (a.theta.toNat * n), sat r)

/-- `root` (40_codec.md R117): the only function that can fail. rho is divided toward zero, theta down. -/
def root (a : CodecValue) (n : Nat) : Except Failure CodecResult :=
  if n = 0 then .error .rootByZero
  else .ok (cv (a.rho.toInt.tdiv n) (a.theta.toNat / n), false)

/-- `inverse` (40_codec.md R118). -/
def inverse (a : CodecValue) : CodecResult :=
  let r := -a.rho.toInt
  (cv r (-a.theta.toNat), sat r)

/-- `conjugate` (40_codec.md R119). -/
def conjugate (a : CodecValue) : CodecResult := (cv a.rho.toInt (-a.theta.toNat), false)

/-- `xor`: XOR of the packed bytes (40_codec.md R120). DEDUCED, log entry 14: R125 gives xor(MAX, NULL) as byte 0xFF,
but MAX is 0x70 and NULL 0x80 (R105), whose XOR by R120 is 0xF0, and this is what the model yields. -/
def codecXor (a b : CodecValue) : CodecResult := (unpack (pack a ^^^ pack b), false)

/-- `mix`: the rounded mean of each field; the mean of theta is not circular (40_codec.md R121, R126). -/
def mix (a b : CodecValue) : CodecResult :=
  (cv (rhazDiv (a.rho.toInt + b.rho.toInt) 2) (rhazDiv (a.theta.toNat + b.theta.toNat) 2), false)

end Sys2Proof
end

