-- ==== Sys2Proof/Machine/State.lean ====
section
/-! DEFINITION. The machine's state as plain data (spec/10_state.md), the ways a step can stop, and the state after
reset. -/

namespace Sys2Proof.Machine

/-- The eight flags of STATUS (10_state.md R27). -/
inductive Flag where
  | z
  | n
  | v
  | c
  | h
  | i
  | e
  | m
deriving DecidableEq, Repr

/-- The status of a run (43_control.md R232). It is computed, not stored (10_state.md R39). -/
inductive RunStatus where
  | running
  | halted
  | faulted (f : Failure)
deriving DecidableEq, Repr

/-- Why `step` answers no next state: the sequencer has stopped (43_control.md R230, R232). Raised by `step` alone,
when it would start on a stopped run; no instruction's meaning raises one. Safe: the model stops where the hardware
stops, and the state with which it stopped is the last next state (log entry 2). -/
inductive Fault where
  /-- The run is Halted: H = 1, nothing is fetched. Success, exit code 0. Raised by `step`; safe. -/
  | halted
  /-- The run is Faulted: an earlier step failed with `f`, set E, and nothing restarted the run since. Exit code 1.
  Raised by `step`; safe. -/
  | faulted (f : Failure)
deriving DecidableEq, Repr

/-- Refusals: no meaning for the instruction. -/
inductive Refusal where
  /-- An arm of `exec` whose instruction has no meaning yet. No arm is left so; safe. -/
  | notModelled (mnemonic : String)
deriving DecidableEq, Repr

/-- The block's state (10_state.md R20 to R37), the code it runs (20_memory.md R51), and the last step's result (R39,
43_control.md R232). -/
structure State where
  /-- `R[0]` to `R[15]` (R20). -/
  regs : Vector CodecValue 16
  /-- `MODE` (R24). -/
  mode : Mode
  /-- `STATUS`, read and written whole by the host (R26). -/
  status : Byte
  /-- `PC` (R36). -/
  pc : Word
  /-- `SP` (R37). -/
  sp : Word
  /-- `FP` (R37). -/
  fp : Word
  /-- `CODE`: the cells whose byte is not 0x00, by rising address (20_memory.md R51; log entry 4). -/
  code : List Host.Cell
  /-- `CODE_LEN`: bytes at addresses 0 to CODE_LEN - 1 exist (20_memory.md R51). -/
  codeLen : Nat
  /-- The failure of the last step, none if it completed (R39; log entry 1). -/
  lastFailure : Option Failure
  /-- A step of the current run has been taken: CODE is fixed from then until the run stops (20_memory.md R63,
  44_host_port.md R247; the model's own field, log entry 15). -/
  begun : Bool
deriving DecidableEq, Repr

/-- The state after reset (10_state.md R40, 70_reset_and_hazards.md R290), with no program supplied yet (log entry 5). -/
def State.reset : State :=
  { regs := Vector.replicate 16 CodecValue.null
    mode := .m128
    status := 0
    pc := 0
    sp := 0
    fp := 0
    code := []
    codeLen := 0
    lastFailure := none
    begun := false }

end Sys2Proof.Machine
end

