-- ==== Sys2Proof/Machine/Flags.lean ====
section
/-! DEFINITION. The status register and every flag computation (10_state.md R26 to R35, 41_alu.md R140). -/

namespace Sys2Proof.Machine

/-- The bit position of a flag (10_state.md R27). -/
def Flag.bit : Flag → Nat
  | .z => 0
  | .n => 1
  | .v => 2
  | .c => 3
  | .h => 4
  | .i => 5
  | .e => 6
  | .m => 7

/-- A flag of a status byte. -/
def getFlag (st : Byte) (f : Flag) : Bool := st.getLsbD f.bit

/-- A status byte with one flag written and the others kept. -/
def putFlag (st : Byte) (f : Flag) (b : Bool) : Byte :=
  if b then st ||| BitVec.twoPow 8 f.bit else st &&& ~~~(BitVec.twoPow 8 f.bit)

/-- `set_flags(res, s)` of 41_alu.md R140: Z, N and V from a result, the other flags kept. -/
def setFlags (st : Byte) (res : CodecValue) (saturated : Bool) : Byte :=
  putFlag (putFlag (putFlag st .z (decide (res = CodecValue.null))) .n (decide (res.rho.toInt < 0))) .v saturated

/-- `STATUS AND (NOT imm8)` (43_control.md R212). -/
def clearFlags (st mask : Byte) : Byte := st &&& ~~~mask

/-- A flag of the machine. -/
def State.flag (s : State) (f : Flag) : Bool := getFlag s.status f

/-- The machine with one flag written. -/
def State.setFlag (s : State) (f : Flag) (b : Bool) : State := { s with status := putFlag s.status f b }

end Sys2Proof.Machine
end

