-- ==== Sys2Proof/Machine/Memory.lean ====
section
/-! DEFINITION. The code space as a list of cells in one canonical form: addresses strictly rising, no cell holding
what an unlisted address reads as (20_memory.md R51, R52; log entry 4). No command writes it (R63); the host loads it. -/

namespace Sys2Proof.Memory

/-- The byte at an address. -/
def read : List Host.Cell → Nat → Byte
  | [], _ => Config.unlistedByte
  | (k, v) :: rest, a => if k = a then v else read rest a

/-- A cell before a canonical list, left out if it holds what an unlisted address reads as. -/
def cons (a : Nat) (b : Byte) (m : List Host.Cell) : List Host.Cell :=
  if b = Config.unlistedByte then m else (a, b) :: m

/-- The list with the byte at an address replaced; the canonical form is kept. -/
def write : List Host.Cell → Nat → Byte → List Host.Cell
  | [], a, b => cons a b []
  | (k, v) :: rest, a, b =>
    if k < a then (k, v) :: write rest a b
    else if k = a then cons a b rest
    else cons a b ((k, v) :: rest)

/-- The bytes of a list at rising addresses from `base`. -/
def writeBytes (m : List Host.Cell) (base : Nat) : List Byte → List Host.Cell
  | [] => m
  | b :: rest => writeBytes (write m base b) (base + 1) rest

/-- A byte array from address `base` up, as cells. -/
def ofBytes (base : Nat) : List Byte → List Host.Cell
  | [] => []
  | b :: rest => cons base b (ofBytes (base + 1) rest)

/-- Strictly rising addresses, all at least `low`, and no cell that could be left out. -/
def risingFrom : Nat → List Host.Cell → Bool
  | _, [] => true
  | low, (k, v) :: rest => decide (low ≤ k) && decide (v ≠ Config.unlistedByte) && risingFrom (k + 1) rest

/-- The canonical form. -/
def wf (m : List Host.Cell) : Bool := risingFrom 0 m

/-- Every listed address is below `len`. -/
def below (len : Nat) (m : List Host.Cell) : Bool := m.all fun cell => decide (cell.1 < len)

end Sys2Proof.Memory
end

