-- ==== Sys2Proof/Machine/Operands.lean ====
section
/-! DEFINITION. What each operand form stands for (30_encoding.md R75): register, mode code, immediate, address. -/

namespace Sys2Proof

/-- The code of a mode (10_state.md R24). -/
def Mode.code : Mode → Nat
  | .m8 => 0
  | .m16 => 1
  | .m32 => 2
  | .m64 => 3
  | .m128 => 4

/-- The active-layer count of a mode, `2^code` (10_state.md R24). -/
def Mode.count (m : Mode) : Nat := 2 ^ m.code

/-- The mode of a code; codes above 4 are not modes (10_state.md R24). -/
def Mode.ofCode : Nat → Option Mode
  | 0 => some .m8
  | 1 => some .m16
  | 2 => some .m32
  | 3 => some .m64
  | 4 => some .m128
  | _ + 5 => none

end Sys2Proof

namespace Sys2Proof.Machine

/-- A mode operand, or `InvalidMode(m)` (42_mode.md R181). -/
def modeOperand (m : Nat) : Except Failure Mode :=
  match Mode.ofCode m with
  | none => .error (.invalidMode m)
  | some target => .ok target

/-- `imm8` as a packed codec byte (30_encoding.md R75). -/
def codecOperand (imm : Byte) : CodecValue := unpack imm

/-- `zext_32(a24)` (30_encoding.md R75, 43_control.md R215). -/
def targetAddress (a : Addr24) : Word := a.zeroExtend 32

/-- A register operand's value: `R[i]`, in every mode (10_state.md R23). -/
def State.reg (s : State) (i : Reg) : CodecValue := s.regs[i]

/-- The machine with `R[i]` written, in every mode; no register is hardwired (10_state.md R20, R23). -/
def State.setReg (s : State) (i : Reg) (v : CodecValue) : State := { s with regs := s.regs.set i v }

end Sys2Proof.Machine
end

