-- ==== Sys2Proof/Machine/Ops.lean ====
section
/-! DEFINITION. The shared operations: fetching, completing a command, raising a failure, writing an ALU result,
promotion and demotion. Every meaning is built from these. -/

namespace Sys2Proof.Machine

/-- The outcome of one instruction or one step. -/
abbrev Result := Host.Outcome State Fault Refusal

/-- What a failure changes: E is set, and nothing else: no register, no other flag, not MODE, not PC (60_exceptions.md
R262). The failure is kept as the run's result (R261), and the run has begun. This is the block's only exception entry: it has no vector and
saves no state (R265). -/
def raise (f : Failure) (s : State) : State :=
  { s with status := putFlag s.status .e true, lastFailure := some f, begun := true }

/-- A command that fails (60_exceptions.md R262). -/
def failWith (f : Failure) (s : State) : Result := .next (raise f s)

/-- A command that completes and is not a taken jump: PC moves past its bytes, modulo 2^32 (43_control.md R231). -/
def complete (fmt : Format) (s : State) : Result :=
  .next { s with pc := s.pc + BitVec.ofNat 32 fmt.size, lastFailure := none, begun := true }

/-- A taken jump writes PC itself (43_control.md R215, R231). -/
def jumpTo (a : Addr24) (s : State) : Result :=
  .next { s with pc := targetAddress a, lastFailure := none, begun := true }

/-- Write an ALU result: `R[rd] <- v; set_flags(v, s)` (41_alu.md R140). -/
def writeResult (rd : Reg) (r : CodecResult) (s : State) : State :=
  { s with regs := s.regs.set rd r.1, status := setFlags s.status r.1 r.2 }

/-- Register `k` by number, for the folded groups of a demotion. Every group member is an active register, so `k` is
below 16 (42_mode.md R183); the other branch is never read. -/
def State.regAt (s : State) (k : Nat) : CodecValue := s.regs.getD k CodecValue.null

/-- The members of a folded group after its first: `R[i+t], R[i+2t], …, R[i+(g-1)t]`, in that order (42_mode.md R183). -/
def groupTail (s : State) (t g i : Nat) : List CodecValue :=
  (List.range (g - 1)).map fun k => s.regAt (i + (k + 1) * t)

/-- A fold strategy: the kept register's own value, then the rest of its group. -/
abbrev Fold := CodecValue → List CodecValue → CodecValue

/-- Demotion's common part (42_mode.md R183, R184): a no-op unless the target has fewer active layers. All reads are of
the old state. -/
def demote (target : Mode) (fold : Fold) (s : State) : State :=
  if s.mode.count ≤ target.count then s
  else
    { s with
      regs := Vector.ofFn fun i : Fin 16 =>
        if i.val < target.count then
          fold (s.reg i) (groupTail s target.count (s.mode.count / target.count) i.val)
        else CodecValue.null
      mode := target
      status := putFlag s.status .m true }

/-- Promotion (42_mode.md R182): a no-op unless the target has more active layers; registers are kept. -/
def promote (target : Mode) (s : State) : State :=
  if target.count ≤ s.mode.count then s else { s with mode := target }

/-- A mode command: fail on a code above 4, else act and complete (42_mode.md R181). -/
def modeCommand (m : Nat) (act : Mode → State → State) (s : State) : Result :=
  match modeOperand m with
  | .error f => failWith f s
  | .ok target => complete .b (act target s)

/-- The run's status, from H, E and the last step's result (10_state.md R39, 43_control.md R232). A failed run is
Faulted until the host loads a state, asserts reset or clears E; that clearing E counts follows 60_exceptions.md R267
and 44_host_port.md R243 against R232's words (DESIGN CHOICE, log entry 1). -/
def State.runStatus (s : State) : RunStatus :=
  match s.lastFailure with
  | some f => if s.flag .e then .faulted f else if s.flag .h then .halted else .running
  | none => if s.flag .h then .halted else .running

/-- The run has begun and has not stopped: CODE may not be changed (20_memory.md R63, 44_host_port.md R247). -/
def State.inRun (s : State) : Bool := s.begun && decide (s.runStatus = .running)

/-- The exit code of a stopped run: 0 for Halted, 1 for Faulted (43_control.md R232). -/
def RunStatus.exitCode : RunStatus → Option Nat
  | .running => none
  | .halted => some 0
  | .faulted _ => some 1

/-- `avail`, the number of bytes a fetch finds (20_memory.md R54). -/
def avail (s : State) : Nat :=
  if s.pc.toNat < s.codeLen then min Config.maxInstrBytes (s.codeLen - s.pc.toNat) else 0

/-- `CodeRead(addr, n)`: lowest address first (20_memory.md R52). -/
def codeRead (s : State) (addr n : Nat) : List Byte :=
  (List.range n).map fun k => Memory.read s.code (addr + k)

/-- What the sequencer finds when it starts a step. -/
inductive Fetched where
  /-- The run has stopped: nothing is fetched. -/
  | stopped (why : Fault)
  /-- The bytes at PC do not decode. -/
  | undecodable (f : Failure)
  /-- An instruction to execute. -/
  | ready (i : Instr)
deriving DecidableEq, Repr

/-- The start of a sequencer step (43_control.md R230): stop, or fetch at PC and decode. -/
def fetch (s : State) : Fetched :=
  match s.runStatus with
  | .faulted f => .stopped (.faulted f)
  | .halted => .stopped .halted
  | .running =>
    match decode (codeRead s s.pc.toNat (avail s)) with
    | .error f => .undecodable f
    | .ok i => .ready i

/-- The machine with a byte string stored at PC, as far as the 32-bit address space goes, and set to run: the bytes
exist (CODE_LEN reaches past them), H is clear and no failure is recorded (log entry 6). -/
def placeAtPc (s : State) (bytes : List Byte) : State :=
  let kept := bytes.take (Config.maxCodeLen - s.pc.toNat)
  { s with
    code := Memory.writeBytes s.code s.pc.toNat kept
    codeLen := max s.codeLen (s.pc.toNat + kept.length)
    status := putFlag s.status .h false
    lastFailure := none }

end Sys2Proof.Machine
end

