-- ==== Sys2Proof/Machine/Alu.lean ====
section
/-! DEFINITION. The ten ALU commands (spec/41_alu.md). Each reads its operands, applies one function of 40_codec.md,
writes `R[rd]` and the flags Z, N and V (R140), and completes; the mode has no effect (R141). -/

namespace Sys2Proof.Machine

/-- `CONJ Rd` (R163). -/
def execConj (rd : Reg) (s : State) : Result := complete .b (writeResult rd (conjugate (s.reg rd)) s)

/-- `INV Rd` (R162). -/
def execInv (rd : Reg) (s : State) : Result := complete .b (writeResult rd (inverse (s.reg rd)) s)

/-- `MOV Rd, Rs` (R150). -/
def execMov (rd rs : Reg) (s : State) : Result := complete .c (writeResult rd (s.reg rs, false) s)

/-- `MUL Rd, Rs` (R152). -/
def execMul (rd rs : Reg) (s : State) : Result := complete .c (writeResult rd (multiply (s.reg rd) (s.reg rs)) s)

/-- `DIV Rd, Rs` (R153). -/
def execDiv (rd rs : Reg) (s : State) : Result := complete .c (writeResult rd (divide (s.reg rd) (s.reg rs)) s)

/-- `XOR Rd, Rs` (R154). -/
def execXor (rd rs : Reg) (s : State) : Result := complete .c (writeResult rd (codecXor (s.reg rd) (s.reg rs)) s)

/-- `MIX Rd, Rs` (R155). -/
def execMix (rd rs : Reg) (s : State) : Result := complete .c (writeResult rd (mix (s.reg rd) (s.reg rs)) s)

/-- `LDI Rd, imm` (R151). -/
def execLdi (rd : Reg) (imm : Byte) (s : State) : Result :=
  complete .c (writeResult rd (codecOperand imm, false) s)

/-- `POW Rd, n` (R160). -/
def execPow (rd : Reg) (n : Nat) (s : State) : Result := complete .c (writeResult rd (power (s.reg rd) n) s)

/-- `ROOT Rd, n` (R161): for n = 0 it fails with nothing written but E. -/
def execRoot (rd : Reg) (n : Nat) (s : State) : Result :=
  match root (s.reg rd) n with
  | .error f => failWith f s
  | .ok r => complete .c (writeResult rd r s)

end Sys2Proof.Machine
end

