-- ==== Sys2Proof/Machine/Control.lean ====
section
/-! DEFINITION. The control commands (spec/43_control.md). -/

namespace Sys2Proof.Machine

/-- `NOP` (R210). -/
def execNop (s : State) : Result := complete .a s

/-- `HALT`: H is set, and PC is advanced before the run stops (R211). -/
def execHalt (s : State) : Result := complete .a (s.setFlag .h true)

/-- `CLRF imm` (R212). -/
def execClrf (mask : Byte) (s : State) : Result :=
  complete .c { s with status := clearFlags s.status mask }

/-- `JMP target` (R215). -/
def execJmp (target : Addr24) (s : State) : Result := jumpTo target s

/-- `JZ target` (R216). -/
def execJz (target : Addr24) (s : State) : Result :=
  if s.flag .z = true then jumpTo target s else complete .d s

/-- `JNZ target` (R217). -/
def execJnz (target : Addr24) (s : State) : Result :=
  if s.flag .z = false then jumpTo target s else complete .d s

end Sys2Proof.Machine
end

