-- ==== Sys2Proof/Machine/ModeCommands.lean ====
section
/-! DEFINITION. The mode commands (spec/42_mode.md): promotion, and demotion by the four fold strategies. -/

namespace Sys2Proof.Machine

/-- Truncate: the kept register keeps its value (R186). -/
def foldTruncate (first : CodecValue) (_rest : List CodecValue) : CodecValue := first

/-- Xor of the packed bytes of the whole group (R187). -/
def foldXor (first : CodecValue) (rest : List CodecValue) : CodecValue :=
  unpack (rest.foldl (fun acc x => acc ^^^ pack x) (pack first))

/-- The rounded mean of rho and of theta over the group (R188). -/
def foldAverage (first : CodecValue) (rest : List CodecValue) : CodecValue :=
  cv (rhazDiv ((first :: rest).map fun x => x.rho.toInt).sum (rest.length + 1))
    (rhazDiv ((first :: rest).map fun x => (x.theta.toNat : Int)).sum (rest.length + 1))

/-- The larger of two members by rho; the earlier one on a tie (R189). -/
def largerRho (best x : CodecValue) : CodecValue := if best.rho.toInt < x.rho.toInt then x else best

/-- The member with the largest rho, the first among equals (R189). -/
def foldMax (first : CodecValue) (rest : List CodecValue) : CodecValue := rest.foldl largerRho first

/-- `PROM Mx` (R182). -/
def execProm (m : Nat) (s : State) : Result := modeCommand m promote s

/-- `DEMT Mx` (R186). -/
def execDemt (m : Nat) (s : State) : Result := modeCommand m (fun t => demote t foldTruncate) s

/-- `DEMX Mx` (R187). -/
def execDemx (m : Nat) (s : State) : Result := modeCommand m (fun t => demote t foldXor) s

/-- `DEMA Mx` (R188). -/
def execDema (m : Nat) (s : State) : Result := modeCommand m (fun t => demote t foldAverage) s

/-- `DEMM Mx` (R189). -/
def execDemm (m : Nat) (s : State) : Result := modeCommand m (fun t => demote t foldMax) s

end Sys2Proof.Machine
end

