-- ==== Sys2Proof/Machine/Dispatch.lean ====
section
/-! DEFINITION. One arm per instruction of spec/opcode_table.json, each one call of its meaning. -/

namespace Sys2Proof.Machine

def exec (i : Instr) (s : State) : Host.Outcome State Fault Refusal :=
  match i with
  | .nop => Sys2Proof.Machine.execNop s
  | .halt => Sys2Proof.Machine.execHalt s
  | .conj rd => Sys2Proof.Machine.execConj rd s
  | .inv rd => Sys2Proof.Machine.execInv rd s
  | .prom m => Sys2Proof.Machine.execProm m s
  | .demt m => Sys2Proof.Machine.execDemt m s
  | .demx m => Sys2Proof.Machine.execDemx m s
  | .dema m => Sys2Proof.Machine.execDema m s
  | .demm m => Sys2Proof.Machine.execDemm m s
  | .mov rd rs => Sys2Proof.Machine.execMov rd rs s
  | .mul rd rs => Sys2Proof.Machine.execMul rd rs s
  | .div rd rs => Sys2Proof.Machine.execDiv rd rs s
  | .xor rd rs => Sys2Proof.Machine.execXor rd rs s
  | .mix rd rs => Sys2Proof.Machine.execMix rd rs s
  | .ldi rd imm => Sys2Proof.Machine.execLdi rd imm s
  | .pow rd n => Sys2Proof.Machine.execPow rd n s
  | .root rd n => Sys2Proof.Machine.execRoot rd n s
  | .clrf mask => Sys2Proof.Machine.execClrf mask s
  | .jmp target => Sys2Proof.Machine.execJmp target s
  | .jz target => Sys2Proof.Machine.execJz target s
  | .jnz target => Sys2Proof.Machine.execJnz target s

end Sys2Proof.Machine
end

