-- ==== Sys2Proof/Machine/Step.lean ====
section
/-! DEFINITION. One step of the sequencer (43_control.md R230). The advance of PC and the recording of a failure are in
the operations each meaning ends with, so a step is the fetch and then `exec`. -/

namespace Sys2Proof.Machine

/-- One step: stop if the run has stopped; fail on bytes that do not decode; else execute. -/
def step (s : State) : Host.Outcome State Fault Refusal :=
  match fetch s with
  | .stopped why => .fault why
  | .undecodable f => failWith f s
  | .ready i => exec i s

/-- The machine with the instruction of a table word stored at PC, so that `step` fetches and runs it (log entry 6). -/
def State.withFetchWord (s : State) (nbits w : Nat) : State := placeAtPc s (tableBytes nbits w)

end Sys2Proof.Machine
end

