-- ==== Sys2Proof/Machine/Assembly.lean ====
section
/-! DEFINITION. The text syntax of 30_encoding.md R83 to R87, as the boundary contract: the canonical disassembly of an
instruction, and the reading of one source line. The assembler and disassembler as programs (sections, label resolution
across lines, emitted padding) are out of scope by 00_scope.md R4(d). -/

namespace Sys2Proof.Machine

/-- Source text. -/
abbrev Text := List Char

/-! ## Writing -/

/-- A capital hex digit. -/
def hexChar (d : Nat) : Char :=
  ['0', '1', '2', '3', '4', '5', '6', '7', '8', '9', 'A', 'B', 'C', 'D', 'E', 'F'].getD (d % 16) '0'

/-- `n` in exactly `k` capital hex digits. -/
def hexText : Nat → Nat → Text
  | 0, _ => []
  | k + 1, n => hexText k (n / 16) ++ [hexChar n]

/-- `n` in decimal, for n below 100: the mode codes and counts that are written in decimal (R86). -/
def decimalText (n : Nat) : Text := if n < 10 then [hexChar n] else [hexChar (n / 10), hexChar (n % 10)]

/-- A register: `R` and one capital hex digit (R86). -/
def regText (r : Reg) : Text := ['R', hexChar r]

/-- An 8-bit immediate: `0x` and two capital hex digits (R86). -/
def imm8Text (n : Nat) : Text := ['0', 'x'] ++ hexText 2 n

/-- An address: `0x` and six capital hex digits (R86). -/
def addrText (a : Addr24) : Text := ['0', 'x'] ++ hexText 6 a.toNat

/-- The name of a mode (R83). -/
def modeName : Mode → Text
  | .m8 => ['M', '8']
  | .m16 => ['M', '1', '6']
  | .m32 => ['M', '3', '2']
  | .m64 => ['M', '6', '4']
  | .m128 => ['M', '1', '2', '8']

/-- A mode field: the mode's name, or `?` and the code in decimal (R86, with the example `PROM ?7`). -/
def modeText (m : Nat) : Text :=
  match Mode.ofCode m with
  | some target => modeName target
  | none => '?' :: decimalText m

/-- The mnemonics of the opcode map (R76). -/
def mnemonicText : Instr → Text
  | .nop => ['N', 'O', 'P']
  | .halt => ['H', 'A', 'L', 'T']
  | .conj _ => ['C', 'O', 'N', 'J']
  | .inv _ => ['I', 'N', 'V']
  | .prom _ => ['P', 'R', 'O', 'M']
  | .demt _ => ['D', 'E', 'M', 'T']
  | .demx _ => ['D', 'E', 'M', 'X']
  | .dema _ => ['D', 'E', 'M', 'A']
  | .demm _ => ['D', 'E', 'M', 'M']
  | .mov _ _ => ['M', 'O', 'V']
  | .mul _ _ => ['M', 'U', 'L']
  | .div _ _ => ['D', 'I', 'V']
  | .xor _ _ => ['X', 'O', 'R']
  | .mix _ _ => ['M', 'I', 'X']
  | .ldi _ _ => ['L', 'D', 'I']
  | .pow _ _ => ['P', 'O', 'W']
  | .root _ _ => ['R', 'O', 'O', 'T']
  | .clrf _ => ['C', 'L', 'R', 'F']
  | .jmp _ => ['J', 'M', 'P']
  | .jz _ => ['J', 'Z']
  | .jnz _ => ['J', 'N', 'Z']

/-- The operands of an instruction as text, in order (R76, R86). Reserved fields are not shown. -/
def operandTexts : Instr → List Text
  | .nop => []
  | .halt => []
  | .conj rd => [regText rd]
  | .inv rd => [regText rd]
  | .prom m => [modeText m]
  | .demt m => [modeText m]
  | .demx m => [modeText m]
  | .dema m => [modeText m]
  | .demm m => [modeText m]
  | .mov rd rs => [regText rd, regText rs]
  | .mul rd rs => [regText rd, regText rs]
  | .div rd rs => [regText rd, regText rs]
  | .xor rd rs => [regText rd, regText rs]
  | .mix rd rs => [regText rd, regText rs]
  | .ldi rd imm => [regText rd, imm8Text imm.toNat]
  | .pow rd n => [regText rd, imm8Text n]
  | .root rd n => [regText rd, imm8Text n]
  | .clrf mask => [imm8Text mask.toNat]
  | .jmp a => [addrText a]
  | .jz a => [addrText a]
  | .jnz a => [addrText a]

/-- Operands separated by `, ` (R86). -/
def joinOperands : List Text → Text
  | [] => []
  | [o] => o
  | o :: rest => o ++ [',', ' '] ++ joinOperands rest

/-- The canonical text of an instruction: the mnemonic, one space, the operands (R86). -/
def disassemble (i : Instr) : Text :=
  match operandTexts i with
  | [] => mnemonicText i
  | ops => mnemonicText i ++ ' ' :: joinOperands ops

/-! ## Reading -/

/-- What the assembler reports (R84, R85). -/
inductive DiagnosticKind where
  | duplicateLabel
  | undefinedLabel
  | unknownOpcode
  | invalidRegister
  | wrongOperandCount
  /-- An immediate or address out of range or not a number, or an unknown mode token. -/
  | wrongOperand
  | unknownDirective
  /-- An unrecognized `.mode` value: the mode is then M128. -/
  | unrecognizedMode
deriving DecidableEq, Repr

/-- How grave a diagnostic is (R85). -/
inductive Severity where
  | error
  | warning
deriving DecidableEq, Repr

/-- Only an unrecognized `.mode` value is a warning (R84). -/
def severity : DiagnosticKind → Severity
  | .duplicateLabel => .error
  | .undefinedLabel => .error
  | .unknownOpcode => .error
  | .invalidRegister => .error
  | .wrongOperandCount => .error
  | .wrongOperand => .error
  | .unknownDirective => .error
  | .unrecognizedMode => .warning

/-- A diagnostic with its place in the source (R85). -/
structure Diagnostic where
  line : Nat
  column : Nat
  kind : DiagnosticKind
deriving DecidableEq, Repr

/-- The value of a decimal digit. -/
def decimalDigit (c : Char) : Option Nat :=
  if '0'.toNat ≤ c.toNat ∧ c.toNat ≤ '9'.toNat then some (c.toNat - '0'.toNat) else none

/-- The value of a hex digit, case-insensitive. -/
def hexDigit (c : Char) : Option Nat :=
  if 'A'.toNat ≤ c.toNat ∧ c.toNat ≤ 'F'.toNat then some (c.toNat - 'A'.toNat + 10)
  else if 'a'.toNat ≤ c.toNat ∧ c.toNat ≤ 'f'.toNat then some (c.toNat - 'a'.toNat + 10)
  else decimalDigit c

/-- The value of a string of digits in a base, most significant first, from `acc` on. -/
def digitsFrom (base : Nat) (digit : Char → Option Nat) : Nat → Text → Option Nat
  | acc, [] => some acc
  | acc, c :: rest =>
    match digit c with
    | none => none
    | some d => digitsFrom base digit (base * acc + d) rest

/-- A number: decimal, or `0x` and one to `maxHex` hex digits (R83; log entry 12). -/
def numberOf (maxHex : Nat) (t : Text) : Option Nat :=
  match t with
  | [] => none
  | '0' :: 'x' :: ds => if ds.length = 0 ∨ maxHex < ds.length then none else digitsFrom 16 hexDigit 0 ds
  | ds => digitsFrom 10 decimalDigit 0 ds

/-- A register: `R` and one hex digit, case-insensitive (R83). -/
def readReg (t : Text) : Except DiagnosticKind Reg :=
  match t with
  | [r, d] =>
    if r = 'R' ∨ r = 'r' then
      match hexDigit d with
      | some k => .ok (Fin.ofNat 16 k)
      | none => .error .invalidRegister
    else .error .invalidRegister
  | _ => .error .invalidRegister

/-- An 8-bit immediate, 0 to 255 (R83, R85). -/
def readImm8 (t : Text) : Except DiagnosticKind Nat :=
  match numberOf 2 t with
  | some n => if n < 256 then .ok n else .error .wrongOperand
  | none => .error .wrongOperand

/-- The mode of a mode token (R83). -/
def modeOfName (t : Text) : Option Mode :=
  if t = modeName .m8 then some .m8
  else if t = modeName .m16 then some .m16
  else if t = modeName .m32 then some .m32
  else if t = modeName .m64 then some .m64
  else if t = modeName .m128 then some .m128
  else none

/-- A mode operand, as its code (R83, R85). -/
def readMode (t : Text) : Except DiagnosticKind Nat :=
  match modeOfName t with
  | some m => .ok m.code
  | none => .error .wrongOperand

/-- The labels a program defines, with their code addresses. -/
abbrev Labels := List (Text × Nat)

/-- An address: a number 0 to 0xFFFFFF, or a label (R83, R85). DESIGN CHOICE, log entry 12: a text that begins with a
decimal digit is a number, and label names are compared character by character, so they are case-sensitive; R83 says
case-insensitive of registers only. Of a name that the labels hold twice, the first counts. -/
def readAddr (labels : Labels) (t : Text) : Except DiagnosticKind Addr24 :=
  let inRange (n : Nat) : Except DiagnosticKind Addr24 :=
    if n < 2 ^ 24 then .ok (BitVec.ofNat 24 n) else .error .wrongOperand
  match t with
  | [] => .error .wrongOperand
  | c :: rest =>
    if (decimalDigit c).isSome then
      match numberOf 6 (c :: rest) with
      | some n => inRange n
      | none => .error .wrongOperand
    else
      match labels.lookup (c :: rest) with
      | some n => inRange n
      | none => .error .undefinedLabel

/-- White space between the parts of a line. -/
def isBlank (c : Char) : Bool := c == ' ' || c == '\t'

/-- A text without the white space around it. -/
def trim (t : Text) : Text := ((t.dropWhile isBlank).reverse.dropWhile isBlank).reverse

/-- The parts of a text between separators. -/
def splitAtChar (sep : Char) : Text → List Text
  | [] => [[]]
  | c :: rest =>
    if c = sep then [] :: splitAtChar sep rest
    else
      match splitAtChar sep rest with
      | [] => [[c]]
      | part :: parts => (c :: part) :: parts

/-- The operands after a mnemonic or directive, separated by commas and optional spaces (R83). -/
def splitOperands (t : Text) : List Text :=
  if trim t = [] then [] else (splitAtChar ',' t).map trim

/-- No operand. -/
def formNone (i : Instr) (ops : List Text) : Except DiagnosticKind Instr :=
  match ops with
  | [] => .ok i
  | _ => .error .wrongOperandCount

/-- One operand read by `read`. -/
def formOne {α : Type} (read : Text → Except DiagnosticKind α) (mk : α → Instr) (ops : List Text) :
    Except DiagnosticKind Instr :=
  match ops with
  | [a] => (read a).map mk
  | _ => .error .wrongOperandCount

/-- Two operands, read in order. -/
def formTwo {α β : Type} (readA : Text → Except DiagnosticKind α) (readB : Text → Except DiagnosticKind β)
    (mk : α → β → Instr) (ops : List Text) : Except DiagnosticKind Instr :=
  match ops with
  | [a, b] =>
    match readA a with
    | .error e => .error e
    | .ok x => (readB b).map (mk x)
  | _ => .error .wrongOperandCount

/-- A mnemonic and how its operands are read (R76's shapes). -/
structure SyntaxRow where
  mnemonic : Text
  read : Labels → List Text → Except DiagnosticKind Instr

/-- The instruction syntax of R76 and R83, in the table's order. -/
def syntaxTable : List SyntaxRow :=
  [ ⟨mnemonicText .nop, fun _ => formNone .nop⟩,
    ⟨mnemonicText .halt, fun _ => formNone .halt⟩,
    ⟨mnemonicText (.conj 0), fun _ => formOne readReg .conj⟩,
    ⟨mnemonicText (.inv 0), fun _ => formOne readReg .inv⟩,
    ⟨mnemonicText (.prom 0), fun _ => formOne readMode .prom⟩,
    ⟨mnemonicText (.demt 0), fun _ => formOne readMode .demt⟩,
    ⟨mnemonicText (.demx 0), fun _ => formOne readMode .demx⟩,
    ⟨mnemonicText (.dema 0), fun _ => formOne readMode .dema⟩,
    ⟨mnemonicText (.demm 0), fun _ => formOne readMode .demm⟩,
    ⟨mnemonicText (.mov 0 0), fun _ => formTwo readReg readReg .mov⟩,
    ⟨mnemonicText (.mul 0 0), fun _ => formTwo readReg readReg .mul⟩,
    ⟨mnemonicText (.div 0 0), fun _ => formTwo readReg readReg .div⟩,
    ⟨mnemonicText (.xor 0 0), fun _ => formTwo readReg readReg .xor⟩,
    ⟨mnemonicText (.mix 0 0), fun _ => formTwo readReg readReg .mix⟩,
    ⟨mnemonicText (.ldi 0 0), fun _ => formTwo readReg readImm8 fun r n => .ldi r (BitVec.ofNat 8 n)⟩,
    ⟨mnemonicText (.pow 0 0), fun _ => formTwo readReg readImm8 .pow⟩,
    ⟨mnemonicText (.root 0 0), fun _ => formTwo readReg readImm8 .root⟩,
    ⟨mnemonicText (.clrf 0), fun _ => formOne readImm8 fun n => .clrf (BitVec.ofNat 8 n)⟩,
    ⟨mnemonicText (.jmp 0), fun labels => formOne (readAddr labels) .jmp⟩,
    ⟨mnemonicText (.jz 0), fun labels => formOne (readAddr labels) .jz⟩,
    ⟨mnemonicText (.jnz 0), fun labels => formOne (readAddr labels) .jnz⟩ ]

/-- `MNEMONIC [operand[, operand...]]` (R83). There are no pseudo-instructions (R87). -/
def readInstr (labels : Labels) (line : Text) : Except DiagnosticKind Instr :=
  let body := trim line
  let name := body.takeWhile fun c => !isBlank c
  match syntaxTable.find? fun row => row.mnemonic == name with
  | none => .error .unknownOpcode
  | some row => row.read labels (splitOperands (body.drop name.length))

/-- A directive (R84). -/
inductive Directive where
  | mode (m : Mode)
  | code
  | data
  | globalName (name : Text)
  | externName (name : Text)
  | align (n : Nat)
  | byte (values : List Byte)
deriving DecidableEq, Repr

/-- The values of `.byte v1, v2, …`. R84 gives no form for a value: DESIGN CHOICE, log entry 12, each is an 8-bit immediate
of R83 and anything else is a wrong operand. -/
def readBytes : List Text → Except DiagnosticKind (List Byte)
  | [] => .ok []
  | o :: rest =>
    match readImm8 o with
    | .error e => .error e
    | .ok n => (readBytes rest).map fun bs => BitVec.ofNat 8 n :: bs

/-- The mode of a `.mode` directive with its diagnostics: an unrecognized value is a warning and gives M128 (R84). -/
def readModeDirective (t : Text) : Mode × List DiagnosticKind :=
  match modeOfName t with
  | some m => (m, [])
  | none => (.m128, [.unrecognizedMode])

/-- A directive line with the diagnostics it raises (R84). An error gives no directive. A wrong number of operands and the
forms of the operands that R84 leaves open are the model's (DESIGN CHOICE, log entry 12). -/
def readDirective (line : Text) : Option Directive × List DiagnosticKind :=
  let body := trim line
  let name := body.takeWhile fun c => !isBlank c
  let ops := splitOperands (body.drop name.length)
  if name = ['.', 'm', 'o', 'd', 'e'] then
    match ops with
    | [o] => (some (.mode (readModeDirective o).1), (readModeDirective o).2)
    | _ => (none, [.wrongOperandCount])
  else if name = ['.', 'c', 'o', 'd', 'e'] ∨ name = ['.', 't', 'e', 'x', 't'] then
    match ops with
    | [] => (some .code, [])
    | _ => (none, [.wrongOperandCount])
  else if name = ['.', 'd', 'a', 't', 'a'] then
    match ops with
    | [] => (some .data, [])
    | _ => (none, [.wrongOperandCount])
  else if name = ['.', 'g', 'l', 'o', 'b', 'a', 'l'] then
    match ops with
    | [o] => (some (.globalName o), [])
    | _ => (none, [.wrongOperandCount])
  else if name = ['.', 'e', 'x', 't', 'e', 'r', 'n'] then
    match ops with
    | [o] => (some (.externName o), [])
    | _ => (none, [.wrongOperandCount])
  else if name = ['.', 'a', 'l', 'i', 'g', 'n'] then
    match ops with
    | [o] =>
      match numberOf 8 o with
      | some n => (some (.align n), [])
      | none => (none, [.wrongOperand])
    | _ => (none, [.wrongOperandCount])
  else if name = ['.', 'b', 'y', 't', 'e'] then
    match ops with
    | [] => (none, [.wrongOperandCount])
    | _ =>
      match readBytes ops with
      | .ok bs => (some (.byte bs), [])
      | .error e => (none, [e])
  else (none, [.unknownDirective])

/-- One source line (R83, R84): nothing, a label (a line ending in `:`), a directive, or an instruction. -/
inductive SourceLine where
  | empty
  | label (name : Text)
  | directive (d : Directive)
  | instruction (i : Instr)
deriving DecidableEq, Repr

/-- Read one source line, with the diagnostics it raises. `earlier` holds the labels of the lines before it, and `labels`
all the labels of the program, with their code addresses (R84, R85). R84 does not say what text may name a label:
DESIGN CHOICE, log entry 12, the name is any text before the final `:`, the empty one and one that begins with a digit
too, which no address operand can then refer to (`readAddr`). Two names are the same label only when they are the same
characters, capitals and small letters apart. -/
def readLine (earlier labels : Labels) (line : Text) : Option SourceLine × List DiagnosticKind :=
  match trim line with
  | [] => (some .empty, [])
  | c :: rest =>
    if (c :: rest).getLast? = some ':' then
      let name := trim (c :: rest).dropLast
      (some (.label name), if (earlier.lookup name).isSome then [.duplicateLabel] else [])
    else if c = '.' then
      match readDirective (c :: rest) with
      | (d, diags) => (d.map .directive, diags)
    else
      match readInstr labels (c :: rest) with
      | .ok i => (some (.instruction i), [])
      | .error e => (none, [e])

/-- The diagnostics of one source line with their place. The place of a line's diagnostics is the line's number, from 1,
and the column of its first character that is not white space, from 1 (R85; log entry 12). -/
def diagnose (earlier labels : Labels) (number : Nat) (line : Text) : List Diagnostic :=
  (readLine earlier labels line).2.map fun kind =>
    { line := number, column := (line.takeWhile isBlank).length + 1, kind := kind }

end Sys2Proof.Machine
end

