-- ==== Sys2Proof/Machine/Cartesian.lean ====
section
/-! DEFINITION. The Cartesian conversions, functions at the host boundary (40_codec.md R108, R110 to R113). They are over
exact complex numbers, so they are not evaluated; no command performs them and no state depends on them (log entry 8). -/

namespace Sys2Proof.Machine

/-- `rhaz` of a real number: the nearest integer, halves away from zero (00_scope.md R9). -/
noncomputable def rhazReal (x : ℝ) : ℤ := if 0 ≤ x then ⌊x + 1 / 2⌋ else -⌊-x + 1 / 2⌋

/-- `quantize` of a complex number (R111). `Complex.arg` is in (-π, π]. -/
noncomputable def quantize (z : ℂ) : CodecValue :=
  if z = 0 then CodecValue.null
  else cv (rhazReal (Real.log ‖z‖)) (rhazReal (Complex.arg z / (2 * Real.pi) * 16))

/-- `c1 = cos(π/8)` (R108). -/
noncomputable def phaseC1 : ℝ := √(2 + √2) / 2

/-- `s1 = sin(π/8)` (R108). -/
noncomputable def phaseS1 : ℝ := √(2 - √2) / 2

/-- `h = √2/2` (R108). -/
noncomputable def phaseH : ℝ := √2 / 2

/-- The cosine column of the phase table (R108). -/
noncomputable def phaseCos (theta : Fin 16) : ℝ :=
  ![1, phaseC1, phaseH, phaseS1, 0, -phaseS1, -phaseH, -phaseC1,
    -1, -phaseC1, -phaseH, -phaseS1, 0, phaseS1, phaseH, phaseC1] theta

/-- The sine column of the phase table (R108). -/
noncomputable def phaseSin (theta : Fin 16) : ℝ :=
  ![0, phaseS1, phaseH, phaseC1, 1, phaseC1, phaseH, phaseS1,
    0, -phaseS1, -phaseH, -phaseC1, -1, -phaseC1, -phaseH, -phaseS1] theta

/-- `deg(theta) = 22.5 · theta`, exact (R108). -/
def degrees (v : CodecValue) : ℚ := 45 / 2 * v.theta.toNat

/-- The complex number a codec value stands for, before `NULL_CARTESIAN` is applied (R107, R112). -/
noncomputable def cartesianExact (v : CodecValue) : ℂ :=
  ⟨Real.exp v.rho.toInt * phaseCos v.theta.toFin, Real.exp v.rho.toInt * phaseSin v.theta.toFin⟩

/-- `to_cartesian` with the open parameter `NULL_CARTESIAN` as an argument (R112). -/
noncomputable def toCartesian (nullIs : Config.NullCartesian) (v : CodecValue) : ℂ :=
  match nullIs with
  | .exactZero => if v = CodecValue.null then 0 else cartesianExact v
  | .expMinusEight => cartesianExact v

/-- `to_polar_degrees` before the magnitude is put in the host's format: magnitude and angle in degrees (R110). -/
noncomputable def toPolarDegrees (v : CodecValue) : ℝ × ℚ := (Real.exp v.rho.toInt, degrees v)

/-- `CART_FORMAT` (00_scope.md R7): how the host holds the two components of a Cartesian value and a magnitude. `read`
gives none for a non-finite or NaN component, and `write` is the format's rendering of an exact real number. -/
structure CartFormat where
  Component : Type
  read : Component → Option ℝ
  write : ℝ → Component

/-- Quantization of a value in the host's format, its real and imaginary part: refused, as none, when a component is
non-finite or NaN (R111). -/
noncomputable def quantizeValue (fmt : CartFormat) (re im : fmt.Component) : Option CodecValue :=
  match fmt.read re, fmt.read im with
  | some x, some y => some (quantize ⟨x, y⟩)
  | _, _ => none

/-- Conversion to the host's format: the real and the imaginary part (R112). -/
noncomputable def toCartesianValue (fmt : CartFormat) (nullIs : Config.NullCartesian) (v : CodecValue) :
    fmt.Component × fmt.Component :=
  (fmt.write (toCartesian nullIs v).re, fmt.write (toCartesian nullIs v).im)

/-- `to_polar_degrees` as the host receives it: the magnitude in `CART_FORMAT`, the angle exact (R110). -/
noncomputable def toPolarDegreesValue (fmt : CartFormat) (v : CodecValue) : fmt.Component × ℚ :=
  (fmt.write (toPolarDegrees v).1, (toPolarDegrees v).2)

end Sys2Proof.Machine
end

