-- ==== Sys2Proof/Machine/HostPort.lean ====
section
/-! DEFINITION. The host port and the 30-byte state record (spec/44_host_port.md), reset (spec/70_reset_and_hazards.md),
and loading a program. Each operation stands between two sequencer steps (R247; log entry 10). -/

namespace Sys2Proof.Machine

/-- `ACTIVE = 2^count(MODE) - 1`: bit i is set when register i is active (42_mode.md R180). -/
def activeMask (m : Mode) : BitVec 16 := BitVec.ofNat 16 (2 ^ m.count - 1)

/-- Register i is active when `i < count(MODE)` (42_mode.md R180). -/
def State.isActive (s : State) (i : Reg) : Bool := decide (i.val < s.mode.count)

/-- What `HREAD` returns (R240). -/
structure ReadResult where
  byte : Byte
  rho : Int
  theta : Nat
  hdeg : BitVec 10
  active : Bool
  activeMask : BitVec 16
deriving DecidableEq, Repr

/-- `HREAD(i)` (R240). -/
def hread (i : Reg) (s : State) : ReadResult :=
  { byte := pack (s.reg i)
    rho := (s.reg i).rho.toInt
    theta := (s.reg i).theta.toNat
    hdeg := hdeg (s.reg i)
    active := s.isActive i
    activeMask := activeMask s.mode }

/-- `HWRITE(i, b)`: no flag is written (R241). -/
def hwrite (i : Reg) (b : Byte) (s : State) : State := s.setReg i (unpack b)

/-- `HSTATR()` (R242). -/
def hstatr (s : State) : Byte := s.status

/-- `HSTAT(s)`: writing H = 0 after a Halted run, or E = 0 after a Faulted one, lets the sequencer run again (R243,
60_exceptions.md R267), as a new run with no failure recorded and no step taken. The spec contradicts itself here:
43_control.md R232 lets a Faulted run become Running only by `HLOAD`. DESIGN CHOICE, log entry 1: R243 and R267 are
followed. -/
def hstat (b : Byte) (s : State) : State :=
  { s with
    status := b
    lastFailure := if s.flag .e && getFlag b .e then s.lastFailure else none
    begun := s.inRun }

/-- A 32-bit field, least significant byte first (20_memory.md R57). -/
def leBytes (w : Word) : List Byte := (List.range 4).map fun k => w.extractLsb' (8 * k) 8

/-- The 32-bit field whose least significant byte is at `k` (20_memory.md R57). -/
def leWordAt (bytes : List Byte) (k : Nat) : Word :=
  byteAt bytes (k + 3) ++ byteAt bytes (k + 2) ++ byteAt bytes (k + 1) ++ byteAt bytes k

/-- `HSAVE()`: the record of R244. -/
def hsave (s : State) : List Byte :=
  s.regs.toList.map pack ++ leBytes s.pc ++ leBytes s.sp ++ leBytes s.fp
    ++ [s.status, BitVec.ofNat 8 s.mode.code]

/-- `HLOAD(bytes, len)` (R246). The length is checked before the mode byte, bytes after the 30th are ignored, and no
fold runs. No failure is recorded in the loaded state (log entry 1); loading one in the middle of a run does not end the
run, so CODE stays fixed (log entry 15). -/
def hload (bytes : List Byte) (s : State) : Except Failure State :=
  if bytes.length < Config.recordLen then .error .invalidState
  else
    match Mode.ofCode (byteAt bytes 29).toNat with
    | none => .error (.invalidMode (byteAt bytes 29).toNat)
    | some m =>
      .ok
        { s with
          regs := Vector.ofFn fun i : Fin 16 => unpack (byteAt bytes i.val)
          pc := leWordAt bytes 16
          sp := leWordAt bytes 20
          fp := leWordAt bytes 24
          status := byteAt bytes 28
          mode := m
          lastFailure := none
          begun := s.inRun }

/-- The reset signal: every piece of state at its reset value; CODE is kept (70_reset_and_hazards.md R290). -/
def State.assertReset (s : State) : State :=
  { State.reset with code := s.code, codeLen := s.codeLen }

/-- CODE and CODE_LEN supplied by the host (70_reset_and_hazards.md R292, R294). -/
def loadCode (bytes : List Byte) (s : State) : State :=
  { s with code := Memory.ofBytes 0 bytes, codeLen := bytes.length }

/-- The record that the host loads for a `.mode` directive: the reset record with byte 29 the code of the mode
(70_reset_and_hazards.md R293). -/
def modeRecord (m : Mode) : List Byte := (hsave State.reset).set 29 (BitVec.ofNat 8 m.code)

/-- What the host may do between steps (R248). -/
inductive HostOp where
  | hread (i : Reg)
  | hwrite (i : Reg) (b : Byte)
  | hstatr
  | hstat (b : Byte)
  | hsave
  | hload (bytes : List Byte)
  | reset
  | loadCode (bytes : List Byte)
deriving DecidableEq, Repr

/-- What the block returns to the host (R248). -/
inductive HostReply where
  | done
  | readResult (r : ReadResult)
  | statusByte (b : Byte)
  | record (bytes : List Byte)
  /-- The operation failed; no state is changed, E included (60_exceptions.md R263). -/
  | failed (f : Failure)
  /-- The block may not do this, and no state is changed (R248): CODE changed in the middle of a run (R247; log entry
  10), or more code than the 32-bit address space holds (log entry 11). -/
  | refused
deriving DecidableEq, Repr

/-- One host operation: what it returns and the state it leaves. CODE may be supplied only outside a run (R247) and as
far as CODE_LEN reaches (00_scope.md R6): else the block refuses it (R248; log entries 10 and 11). -/
def hostStep (op : HostOp) (s : State) : HostReply × State :=
  match op with
  | .hread i => (.readResult (hread i s), s)
  | .hwrite i b => (.done, hwrite i b s)
  | .hstatr => (.statusByte (hstatr s), s)
  | .hstat b => (.done, hstat b s)
  | .hsave => (.record (hsave s), s)
  | .hload bytes =>
    match hload bytes s with
    | .error f => (.failed f, s)
    | .ok t => (.done, t)
  | .reset => (.done, s.assertReset)
  | .loadCode bytes =>
    if bytes.length ≤ Config.maxCodeLen ∧ s.inRun = false then (.done, loadCode bytes s) else (.refused, s)

/-- The boot order of 70_reset_and_hazards.md R294 for a program and its `.mode`: reset, `HLOAD` (R293), supply CODE. A
program longer than the 32-bit address space is refused, as by `loadCode`, and nothing is changed (log entry 11). -/
def boot (m : Mode) (program : List Byte) (s : State) : HostReply × State :=
  if program.length ≤ Config.maxCodeLen then
    match hload (modeRecord m) s.assertReset with
    | .error f => (.failed f, s)
    | .ok t => hostStep (.loadCode program) t
  else (.refused, s)

/-- The numeric code of a failure (60_exceptions.md R260). -/
def failureCode : Failure → Nat
  | .invalidOpcode _ => 1
  | .instructionTruncated _ _ => 2
  | .rootByZero => 3
  | .invalidMode _ => 4
  | .invalidState => 5

end Sys2Proof.Machine
end

