-- ==== Sys2Proof/Machine/Instances.lean ====
section
/-! DEFINITION. Several instances of the block side by side (10_state.md R42, 60_exceptions.md R272): each owns all of
its state, is stepped and reached by its own host, and none can signal another. -/

namespace Sys2Proof.Machine

/-- The instances, each a machine of its own. -/
abbrev Instances := List State

/-- One sequencer step of instance `k`; a stopped or absent instance stays as it is. -/
def Instances.stepAt (ms : Instances) (k : Nat) : Instances :=
  match ms[k]? with
  | none => ms
  | some s =>
    match step s with
    | .next t => ms.set k t
    | .fault _ => ms
    | .refused _ => ms

/-- One host operation on instance `k`. -/
def Instances.hostAt (ms : Instances) (k : Nat) (op : HostOp) : Instances :=
  match ms[k]? with
  | none => ms
  | some s => ms.set k (hostStep op s).2

end Sys2Proof.Machine
end

