-- ==== Sys2Proof/Safety.lean ====
section
/-! DEFINITION. The terms claims are stated in: what an instruction leaves unchanged, the machine's invariant, runs and
their ends, and the states a machine and its host can reach. -/

namespace Sys2Proof.Machine

/-! ## Frames -/

/-- What every command and every failure leaves unchanged: SP, FP, CODE_LEN, and every byte of CODE (10_state.md R37,
20_memory.md R63). -/
structure FixedParts (s t : State) : Prop where
  sp : t.sp = s.sp
  fp : t.fp = s.fp
  codeLen : t.codeLen = s.codeLen
  bytes : ∀ a, Memory.read t.code a = Memory.read s.code a

/-- An ALU command that completed (41_alu.md R140): `R[rd]` holds `v` and no other register changed; Z, N and V are
those of `v` and `saturated`, the other flags are kept; MODE and the fixed parts are kept; PC is past the command, and
the step's result is no failure. -/
structure AluCompleted (rd : Reg) (v : CodecValue) (saturated : Bool) (size : Nat) (s t : State) : Prop where
  result : t.reg rd = v
  others : ∀ r, r ≠ rd → t.reg r = s.reg r
  zero : t.flag .z = true ↔ pack v = 0x80
  negative : t.flag .n = true ↔ v.rho.toInt < 0
  overflow : t.flag .v = saturated
  flags : ∀ f, f ≠ .z → f ≠ .n → f ≠ .v → t.flag f = s.flag f
  mode : t.mode = s.mode
  fixed : FixedParts s t
  pc : t.pc = s.pc + BitVec.ofNat 32 size
  noFailure : t.lastFailure = none

/-- A command that completed with no register and no mode written, and with the flags `flagsKept` kept. -/
structure ControlCompleted (flagsKept : Flag → Prop) (pc : Word) (s t : State) : Prop where
  regs : ∀ r, t.reg r = s.reg r
  flags : ∀ f, flagsKept f → t.flag f = s.flag f
  mode : t.mode = s.mode
  fixed : FixedParts s t
  pc : t.pc = pc
  noFailure : t.lastFailure = none

/-- A failure (60_exceptions.md R262): E is set, the failure is the run's result, and nothing else changes: no register,
no other flag, not MODE, not PC. -/
structure FailedWith (f : Failure) (s t : State) : Prop where
  error : t.flag .e = true
  recorded : t.runStatus = .faulted f
  regs : ∀ r, t.reg r = s.reg r
  flags : ∀ g, g ≠ .e → t.flag g = s.flag g
  mode : t.mode = s.mode
  fixed : FixedParts s t
  pc : t.pc = s.pc

/-- A demotion from `c` active layers to `target` that is not a no-op (42_mode.md R183 to R185): register `i` below the
target count holds `fold` of its group's old members `R[i], R[i+t], …`, every other register is NULL; MODE is the
target; M is set and the other flags are kept; PC is past the command. -/
structure DemotionCompleted (target : Mode) (kept : (i : Reg) → CodecValue → Prop) (s t : State) : Prop where
  kept : ∀ i : Reg, i.val < target.count → kept i (t.reg i)
  cleared : ∀ i : Reg, target.count ≤ i.val → pack (t.reg i) = 0x80
  mode : t.mode = target
  pending : t.flag .m = true
  flags : ∀ f, f ≠ .m → t.flag f = s.flag f
  fixed : FixedParts s t
  pc : t.pc = s.pc + 2
  noFailure : t.lastFailure = none

/-- A mode command refuses the codes 5 to 15 (42_mode.md R181): it fails `InvalidMode`. -/
def RejectsModeCodes (command : Nat → Instr) : Prop :=
  ∀ (m : Nat) (s : State), 5 ≤ m → m ≤ 15 → ∃ t, exec (command m) s = .next t ∧ FailedWith (.invalidMode m) s t

/-- A demotion command whose target has no fewer active layers writes nothing, M included (42_mode.md R183). -/
def KeepsAllUpwards (command : Nat → Instr) : Prop :=
  ∀ (target : Mode) (s : State), s.mode.count ≤ target.count → ∃ t, exec (command target.code) s = .next t ∧
    ControlCompleted (fun _ => True) (s.pc + 2) s t

/-- Registers `i` and `j` are in one folded group of a demotion to `t` layers: `j` is active and `j - i` is a multiple
of `t` (42_mode.md R183). -/
def inGroup (s : State) (t : Nat) (i j : Reg) : Bool := decide (j.val < s.mode.count) && decide (j.val % t = i.val % t)

/-- The members of the folded group of register `i`, in increasing index order (42_mode.md R183). -/
def groupOf (s : State) (t : Nat) (i : Reg) : List CodecValue :=
  ((List.finRange 16).filter (inGroup s t i)).map s.reg

/-! ## Fields of an encoding -/

/-- The bits of byte `k` that are not reserved in an instruction with first byte `op`, by the byte patterns of
30_encoding.md R77. The first byte is the opcode itself. -/
def fieldMask (op : Byte) (k : Nat) : Byte :=
  match k with
  | 1 =>
    if op ∈ [0x10, 0x11, 0x18, 0x19, 0x1A, 0x1B, 0x1C, 0x30, 0x31, 0x32] then 0xF0
    else if op ∈ [0x20, 0x21, 0x22, 0x23, 0x24, 0x40, 0x41, 0x42] then 0xFF
    else 0x00
  | 2 => if op ∈ [0x30, 0x31, 0x32, 0x38, 0x40, 0x41, 0x42] then 0xFF else 0x00
  | 3 => if op ∈ [0x40, 0x41, 0x42] then 0xFF else 0x00
  | _ => 0x00

/-- Two byte strings have the same number of bytes after the first byte `op` and agree on every field of R77 that is not
reserved. -/
def AgreeOnFields (op : Byte) (rest rest' : List Byte) : Prop :=
  rest.length = rest'.length ∧
  ∀ k, byteAt (op :: rest) k &&& fieldMask op k = byteAt (op :: rest') k &&& fieldMask op k

/-! ## Rounding and field values -/

/-- `r = rhaz(p / q)`: `r` is nearest to `p / q`, and of two nearest the one farther from zero (00_scope.md R9). -/
def IsRhaz (p : Int) (q : Nat) (r : Int) : Prop :=
  2 * (q * r - p).natAbs ≤ q ∧ (2 * (q * r - p).natAbs = q → p.natAbs ≤ (q * r).natAbs)

/-- The value of a 4-bit number as two's complement: `sext_4` of 00_scope.md R9. -/
def sext4 (k : Nat) : Int := if k < 8 then k else k - 16

/-! ## Which commands may set and clear which flags (10_state.md R27) -/

/-- The ALU commands (41_alu.md R140). -/
def isAlu : Instr → Bool
  | .nop => false
  | .halt => false
  | .conj _ => true
  | .inv _ => true
  | .prom _ => false
  | .demt _ => false
  | .demx _ => false
  | .dema _ => false
  | .demm _ => false
  | .mov _ _ => true
  | .mul _ _ => true
  | .div _ _ => true
  | .xor _ _ => true
  | .mix _ _ => true
  | .ldi _ _ => true
  | .pow _ _ => true
  | .root _ _ => true
  | .clrf _ => false
  | .jmp _ => false
  | .jz _ => false
  | .jnz _ => false

/-- A mode command whose code names a mode with fewer active layers than the current one (42_mode.md R181, R183). -/
def lowersMode (s : State) (m : Nat) : Bool :=
  match Mode.ofCode m with
  | none => false
  | some target => decide (target.count < s.mode.count)

/-- The effective demotions: those that change the mode (10_state.md R35, 42_mode.md R183). -/
def isEffectiveDemotion (s : State) : Instr → Bool
  | .nop => false
  | .halt => false
  | .conj _ => false
  | .inv _ => false
  | .prom _ => false
  | .demt m => lowersMode s m
  | .demx m => lowersMode s m
  | .dema m => lowersMode s m
  | .demm m => lowersMode s m
  | .mov _ _ => false
  | .mul _ _ => false
  | .div _ _ => false
  | .xor _ _ => false
  | .mix _ _ => false
  | .ldi _ _ => false
  | .pow _ _ => false
  | .root _ _ => false
  | .clrf _ => false
  | .jmp _ => false
  | .jz _ => false
  | .jnz _ => false

/-- The "set by" column of 10_state.md R27, for a command that runs in `s` and fails or completes: Z, N and V by an ALU
command that completes, M by an effective demotion, E by a failure. -/
def maySet (s : State) (i : Instr) (failed : Bool) : Flag → Bool
  | .z => isAlu i && !failed
  | .n => isAlu i && !failed
  | .v => isAlu i && !failed
  | .c => false
  | .h => decide (i = .halt)
  | .i => false
  | .e => failed
  | .m => isEffectiveDemotion s i

/-- The "cleared by" column of 10_state.md R27, for a command that fails or completes: `CLRF` with the flag's mask bit,
and for Z, N and V an ALU command that completes. -/
def mayClear (i : Instr) (failed : Bool) (f : Flag) : Bool :=
  match i with
  | .clrf mask => getFlag mask f
  | _ => isAlu i && !failed && (decide (f = .z) || decide (f = .n) || decide (f = .v))

/-! ## The invariant -/

/-- The failures a sequencer step can record, with what they record (60_exceptions.md R260, R261, R264). -/
def sequencerFailure : Failure → Bool
  | .invalidOpcode byte => (opcodeRow byte).isNone
  | .instructionTruncated expected found =>
    (decide (expected = 1) && decide (found = 0))
      || (decide (1 ≤ found) && decide (found < expected) && decide (expected ≤ 4))
  | .rootByZero => true
  | .invalidMode code => decide (5 ≤ code) && decide (code ≤ 15)
  | .invalidState => false

/-- The machine's invariant: CODE is in canonical form, inside CODE_LEN, and fits the 32-bit address space, and a
recorded failure is one a sequencer step can raise and is recorded with E set. -/
def State.inv (s : State) : Bool :=
  Memory.wf s.code && Memory.below s.codeLen s.code && decide (s.codeLen ≤ Config.maxCodeLen)
    && (match s.lastFailure with
      | none => true
      | some f => sequencerFailure f && s.flag .e)

/-! ## Runs -/

/-- What a machine and its host can reach: sequencer steps and host operations between them (44_host_port.md R247). -/
inductive Reaches : State → State → Prop where
  | refl (s : State) : Reaches s s
  | step {s t u : State} : Reaches s t → step t = .next u → Reaches s u
  | host {s t : State} (op : HostOp) : Reaches s t → Reaches s (hostStep op t).2

/-- A run of the sequencer alone that ends Halted after `k` steps: success, exit code 0 (43_control.md R232). -/
def HaltsAfter (k : Nat) (s t : State) : Prop :=
  Sys2Proof.core.run k s = .next t ∧ t.runStatus = .halted

/-- A run that ends Faulted after `k` steps, the failing one counted (43_control.md R232). -/
def FaultsAfter (k : Nat) (s t : State) (f : Failure) : Prop :=
  Sys2Proof.core.run k s = .next t ∧ t.runStatus = .faulted f

/-- A safe run of `k` steps: no failure on the way. -/
def SafeFor (k : Nat) (s : State) : Prop :=
  ∀ j, j ≤ k → ∀ t f, Sys2Proof.core.run j s = .next t → t.runStatus ≠ .faulted f

/-- The bytes the sequencer finds at PC. -/
def bytesAtPc (s : State) : List Byte := codeRead s s.pc.toNat (avail s)

end Sys2Proof.Machine
end

