-- ==== Sys2Proof/Certificates/Slice0/Obligations.lean ====
section
/-! DEFINITION. The statements for the provers, from the numbered rules of spec/, file by file. Each docstring names the
rules it formalises. Statements about an instruction give its encoding, the next state of every execution, and what is
left unchanged. -/

open Sys2Proof Sys2Proof.Machine

/-! ## Reset and boot -/

/-- R40, R290, R291: reset leaves every register NULL, MODE M128, STATUS 0x00 and PC, SP and FP 0, and the run Running,
at power-on and when the host asserts it in any state; CODE is not changed by it. -/
def Obligations.ResetLeavesSpecValues : Prop :=
  ((∀ i, pack (State.reset.reg i) = 0x80) ∧ State.reset.mode = .m128 ∧ State.reset.status = 0 ∧
    State.reset.pc = 0 ∧ State.reset.sp = 0 ∧ State.reset.fp = 0 ∧ State.reset.runStatus = .running) ∧
  ∀ s, ∃ t, hostStep .reset s = (.done, t) ∧
    (∀ i, pack (t.reg i) = 0x80) ∧ t.mode = .m128 ∧ t.status = 0 ∧ t.pc = 0 ∧ t.sp = 0 ∧ t.fp = 0 ∧
    t.runStatus = .running ∧ t.code = s.code ∧ t.codeLen = s.codeLen

/-- R293, R294, R6: the boot of a program of at most 2^32 bytes with `.mode Mx` starts it in that mode, from the reset
values, with no fold run and M clear, at PC 0 and Running. That the boot leaves no recorded failure is the model's (log
entry 1), and that a longer program is refused and changes nothing is too (log entry 11). -/
def Obligations.BootStartsInItsMode : Prop :=
  ∀ (m : Mode) (program : List Byte) (s : State),
    (program.length ≤ 2 ^ 32 → ∃ t, boot m program s = (.done, t) ∧ t.mode = m ∧
      (∀ i, pack (t.reg i) = 0x80) ∧ t.status = 0 ∧ t.pc = 0 ∧ t.sp = 0 ∧ t.fp = 0 ∧ t.runStatus = .running ∧
      t.lastFailure = none ∧ t.codeLen = program.length ∧ ∀ a, Memory.read t.code a = program.getD a 0) ∧
    (2 ^ 32 < program.length → boot m program s = (.refused, s))

/-! ## Encoding -/

/-- Words written out from the byte patterns of R77 and the examples of 41_alu.md to 43_control.md. -/
def Obligations.SpecWordsDecode : Prop :=
  decode [0x00] = .ok .nop ∧
  decode [0x10, 0x50] = .ok (.conj 5) ∧
  decode [0x1A, 0x20] = .ok (.demx 2) ∧
  decode [0x21, 0x01, 0x00] = .ok (.mul 0 1) ∧
  decode [0x30, 0x10, 0xD8] = .ok (.ldi 1 0xD8) ∧
  decode [0x32, 0x20, 0x02] = .ok (.root 2 2) ∧
  decode [0x38, 0x00, 0x80] = .ok (.clrf 0x80) ∧
  decode [0x42, 0x06, 0x00, 0x00] = .ok (.jnz 6)

/-- R81: an encoding has its format's size, decoding it gives the instruction back whatever follows, and for a byte
string that decodes, encoding the instruction gives the string's bytes exactly when its reserved fields are 0. -/
def Obligations.DecodeEncodeAgree : Prop :=
  (∀ i : Instr, i.wf = true → (encode i).length = i.size ∧ ∀ rest, decode (encode i ++ rest) = .ok i) ∧
  ∀ (bytes : List Byte) (i : Instr), decode bytes = .ok i →
    (encode i = bytes.take i.size ↔ reservedZero i bytes = true)

/-- R82: the encoder writes every reserved field of R77 as 0, and two byte strings of one length that agree on the
opcode and on every field that is not reserved decode alike, in failing too: the value of a reserved field makes no
difference. -/
def Obligations.ReservedFieldsAreIgnored : Prop :=
  (∀ i : Instr, ∃ op rest, encode i = op :: rest ∧ ∀ k, 1 ≤ k → byteAt (encode i) k &&& ~~~fieldMask op k = 0) ∧
  ∀ (op : Byte) (rest rest' : List Byte), AgreeOnFields op rest rest' → decode (op :: rest) = decode (op :: rest')

/-- R79, R80, R264: decoding fails by name. With no byte it reports `InstructionTruncated(1, 0)`; an unassigned first
byte is `InvalidOpcode` whatever follows, and there are 235 of them; an assigned one with too few bytes reports the
format's size and the bytes found; with enough bytes it decodes to an instruction of that size. -/
def Obligations.DecodeFailsOnlyByName : Prop :=
  decode [] = .error (.instructionTruncated 1 0) ∧
  (∀ (op : Byte) (rest : List Byte) (size : Nat),
    (op ∈ [0x00, 0x01] ∧ size = 1 ∨
      op ∈ [0x10, 0x11, 0x18, 0x19, 0x1A, 0x1B, 0x1C] ∧ size = 2 ∨
      op ∈ [0x20, 0x21, 0x22, 0x23, 0x24, 0x30, 0x31, 0x32, 0x38] ∧ size = 3 ∨
      op ∈ [0x40, 0x41, 0x42] ∧ size = 4) →
    (rest.length + 1 < size → decode (op :: rest) = .error (.instructionTruncated size (rest.length + 1))) ∧
    (size ≤ rest.length + 1 → ∃ i, decode (op :: rest) = .ok i ∧ i.size = size)) ∧
  (∀ (op : Byte) (rest : List Byte),
    op ∉ [0x00, 0x01, 0x10, 0x11, 0x18, 0x19, 0x1A, 0x1B, 0x1C, 0x20, 0x21, 0x22, 0x23, 0x24, 0x30, 0x31, 0x32, 0x38,
      0x40, 0x41, 0x42] →
    decode (op :: rest) = .error (.invalidOpcode op)) ∧
  ((List.range 256).filter fun k => (opcodeRow (BitVec.ofNat 8 k)).isNone).length = 235

/-! ## ALU commands -/

/-- R150: `MOV Rd, Rs` copies the register; Z and N from it, V cleared. -/
def Obligations.MovCopiesRegister : Prop :=
  (∀ b1 b2 rest, decode (0x20 :: b1 :: b2 :: rest) = .ok (.mov (hiNibble b1) (loNibble b1))) ∧
  ∀ rd rs s, ∃ t, exec (.mov rd rs) s = .next t ∧ AluCompleted rd (s.reg rs) false 3 s t

/-- R151: `LDI Rd, imm` loads the codec value of the packed byte: rho from bits 7:4 as two's complement, theta from
bits 3:0. -/
def Obligations.LdiLoadsPackedByte : Prop :=
  (∀ b1 b2 rest, decode (0x30 :: b1 :: b2 :: rest) = .ok (.ldi (hiNibble b1) b2)) ∧
  ∀ (rd : Reg) (imm : Byte) (s : State), ∃ t v, exec (.ldi rd imm) s = .next t ∧ AluCompleted rd v false 3 s t ∧
    v.rho.toInt = sext4 (imm.toNat / 16) ∧ v.theta.toNat = imm.toNat % 16

/-- R152, R114: `MUL Rd, Rs` adds the exact rhos and clamps, adds the thetas modulo 16; V is set exactly when the exact
sum was outside [-8, 7]. -/
def Obligations.MulAddsLogFields : Prop :=
  (∀ b1 b2 rest, decode (0x21 :: b1 :: b2 :: rest) = .ok (.mul (hiNibble b1) (loNibble b1))) ∧
  ∀ (rd rs : Reg) (s : State), ∃ t v saturated, exec (.mul rd rs) s = .next t ∧ AluCompleted rd v saturated 3 s t ∧
    v.rho.toInt = max (-8) (min 7 ((s.reg rd).rho.toInt + (s.reg rs).rho.toInt)) ∧
    v.theta.toNat = ((s.reg rd).theta.toNat + (s.reg rs).theta.toNat) % 16 ∧
    (saturated = true ↔ (s.reg rd).rho.toInt + (s.reg rs).rho.toInt < -8 ∨
      7 < (s.reg rd).rho.toInt + (s.reg rs).rho.toInt)

/-- R153, R115: `DIV Rd, Rs` subtracts the exact rhos and clamps, subtracts the thetas modulo 16; no divisor fails. -/
def Obligations.DivSubtractsLogFields : Prop :=
  (∀ b1 b2 rest, decode (0x22 :: b1 :: b2 :: rest) = .ok (.div (hiNibble b1) (loNibble b1))) ∧
  ∀ (rd rs : Reg) (s : State), ∃ t v saturated, exec (.div rd rs) s = .next t ∧ AluCompleted rd v saturated 3 s t ∧
    v.rho.toInt = max (-8) (min 7 ((s.reg rd).rho.toInt - (s.reg rs).rho.toInt)) ∧
    (v.theta.toNat : Int) = ((s.reg rd).theta.toNat - (s.reg rs).theta.toNat : Int) % 16 ∧
    (saturated = true ↔ (s.reg rd).rho.toInt - (s.reg rs).rho.toInt < -8 ∨
      7 < (s.reg rd).rho.toInt - (s.reg rs).rho.toInt)

/-- R154, R120: `XOR Rd, Rs` is the XOR of the packed bytes, so of each raw field; a second one with rd ≠ rs restores
Rd. -/
def Obligations.XorCombinesRawFields : Prop :=
  (∀ b1 b2 rest, decode (0x23 :: b1 :: b2 :: rest) = .ok (.xor (hiNibble b1) (loNibble b1))) ∧
  (∀ (rd rs : Reg) (s : State), ∃ t v, exec (.xor rd rs) s = .next t ∧ AluCompleted rd v false 3 s t ∧
    pack v = pack (s.reg rd) ^^^ pack (s.reg rs) ∧
    v.rho = (s.reg rd).rho ^^^ (s.reg rs).rho ∧ v.theta = (s.reg rd).theta ^^^ (s.reg rs).theta) ∧
  ∀ (rd rs : Reg) (s : State), rd ≠ rs → ∃ t u, exec (.xor rd rs) s = .next t ∧ exec (.xor rd rs) t = .next u ∧
    ∀ r, u.reg r = s.reg r

/-- R155, R121: `MIX Rd, Rs` is the mean of each field, halves away from zero; it never saturates, and the mean of theta
is not circular. -/
def Obligations.MixTakesRoundedMeans : Prop :=
  (∀ b1 b2 rest, decode (0x24 :: b1 :: b2 :: rest) = .ok (.mix (hiNibble b1) (loNibble b1))) ∧
  ∀ (rd rs : Reg) (s : State), ∃ t v, exec (.mix rd rs) s = .next t ∧ AluCompleted rd v false 3 s t ∧
    IsRhaz ((s.reg rd).rho.toInt + (s.reg rs).rho.toInt) 2 v.rho.toInt ∧
    IsRhaz ((s.reg rd).theta.toNat + (s.reg rs).theta.toNat) 2 v.theta.toNat

/-- R160, R116: `POW Rd, n` multiplies the exact rho by n and clamps, and theta by n modulo 16. -/
def Obligations.PowScalesLogFields : Prop :=
  (∀ b1 b2 rest, decode (0x31 :: b1 :: b2 :: rest) = .ok (.pow (hiNibble b1) b2.toNat)) ∧
  ∀ (rd : Reg) (n : Nat) (s : State), ∃ t v saturated, exec (.pow rd n) s = .next t ∧
    AluCompleted rd v saturated 3 s t ∧
    v.rho.toInt = max (-8) (min 7 ((s.reg rd).rho.toInt * n)) ∧
    v.theta.toNat = ((s.reg rd).theta.toNat * n) % 16 ∧
    (saturated = true ↔ (s.reg rd).rho.toInt * n < -8 ∨ 7 < (s.reg rd).rho.toInt * n)

/-- R161, R117: `ROOT Rd, n` divides rho by n toward zero and theta by n down; with n = 0 it fails `RootByZero` and
writes nothing but E. -/
def Obligations.RootDividesLogFields : Prop :=
  (∀ b1 b2 rest, decode (0x32 :: b1 :: b2 :: rest) = .ok (.root (hiNibble b1) b2.toNat)) ∧
  (∀ (rd : Reg) (n : Nat) (s : State), n ≠ 0 → ∃ t v, exec (.root rd n) s = .next t ∧
    AluCompleted rd v false 3 s t ∧
    v.rho.toInt.natAbs = (s.reg rd).rho.toInt.natAbs / n ∧ 0 ≤ v.rho.toInt * (s.reg rd).rho.toInt ∧
    v.theta.toNat = (s.reg rd).theta.toNat / n) ∧
  ∀ (rd : Reg) (s : State), ∃ t, exec (.root rd 0) s = .next t ∧ FailedWith .rootByZero s t

/-- R162, R118: `INV Rd` negates rho, clamped, and theta modulo 16; it saturates exactly when the old rho was -8. -/
def Obligations.InvNegatesFields : Prop :=
  (∀ b1 rest, decode (0x11 :: b1 :: rest) = .ok (.inv (hiNibble b1))) ∧
  ∀ (rd : Reg) (s : State), ∃ t v saturated, exec (.inv rd) s = .next t ∧ AluCompleted rd v saturated 2 s t ∧
    v.rho.toInt = min 7 (-(s.reg rd).rho.toInt) ∧
    v.theta.toNat = (16 - (s.reg rd).theta.toNat) % 16 ∧
    (saturated = true ↔ (s.reg rd).rho.toInt = -8)

/-- R163, R119: `CONJ Rd` keeps rho and negates theta modulo 16; two of them restore the value. -/
def Obligations.ConjNegatesTheta : Prop :=
  (∀ b1 rest, decode (0x10 :: b1 :: rest) = .ok (.conj (hiNibble b1))) ∧
  (∀ (rd : Reg) (s : State), ∃ t v, exec (.conj rd) s = .next t ∧ AluCompleted rd v false 2 s t ∧
    v.rho = (s.reg rd).rho ∧ v.theta.toNat = (16 - (s.reg rd).theta.toNat) % 16) ∧
  ∀ (rd : Reg) (s : State), ∃ t u, exec (.conj rd) s = .next t ∧ exec (.conj rd) t = .next u ∧
    ∀ r, u.reg r = s.reg r

/-- R141, R23: the mode gates no ALU command: in another mode the same command does the same. -/
def Obligations.AluIsNotModeSensitive : Prop :=
  ∀ (i : Instr) (s t : State) (m : Mode), isAlu i = true → exec i s = .next t →
    exec i { s with mode := m } = .next { t with mode := m }

/-! ## Mode commands -/

/-- R182: `PROM Mx` raises the mode and changes nothing else, or does nothing when the target has no more active
layers; a code of 5 to 15 fails. -/
def Obligations.PromRaisesMode : Prop :=
  (∀ b1 rest, decode (0x18 :: b1 :: rest) = .ok (.prom (hiNibble b1))) ∧ RejectsModeCodes .prom ∧
  ∀ (target : Mode) (s : State), ∃ t, exec (.prom target.code) s = .next t ∧
    t.mode = (if target.count ≤ s.mode.count then s.mode else target) ∧
    (∀ r, t.reg r = s.reg r) ∧ (∀ f, t.flag f = s.flag f) ∧ FixedParts s t ∧ t.pc = s.pc + 2 ∧ t.lastFailure = none

/-- R186: `DEMT Mx` to fewer layers: each kept register keeps its value. To as many or more it writes nothing, and a
code of 5 to 15 fails. -/
def Obligations.DemtTruncates : Prop :=
  (∀ b1 rest, decode (0x19 :: b1 :: rest) = .ok (.demt (hiNibble b1))) ∧ RejectsModeCodes .demt ∧ KeepsAllUpwards .demt ∧
  ∀ (target : Mode) (s : State), target.count < s.mode.count → ∃ t, exec (.demt target.code) s = .next t ∧
    DemotionCompleted target (fun i v => v = s.reg i) s t

/-- R187: `DEMX Mx` to fewer layers: each kept register is the XOR of the packed bytes of its group.
To as many or more it writes nothing, and a code of 5 to 15 fails. -/
def Obligations.DemxFoldsByXor : Prop :=
  (∀ b1 rest, decode (0x1A :: b1 :: rest) = .ok (.demx (hiNibble b1))) ∧ RejectsModeCodes .demx ∧ KeepsAllUpwards .demx ∧
  ∀ (target : Mode) (s : State), target.count < s.mode.count → ∃ t, exec (.demx target.code) s = .next t ∧
    DemotionCompleted target
      (fun i v => pack v = (groupOf s target.count i).foldr (fun x acc => pack x ^^^ acc) 0) s t

/-- R188: `DEMA Mx` to fewer layers: each kept register is the rounded mean of rho and of theta over its group.
To as many or more it writes nothing, and a code of 5 to 15 fails. -/
def Obligations.DemaFoldsByAverage : Prop :=
  (∀ b1 rest, decode (0x1B :: b1 :: rest) = .ok (.dema (hiNibble b1))) ∧ RejectsModeCodes .dema ∧ KeepsAllUpwards .dema ∧
  ∀ (target : Mode) (s : State), target.count < s.mode.count → ∃ t, exec (.dema target.code) s = .next t ∧
    DemotionCompleted target
      (fun i v =>
        IsRhaz ((groupOf s target.count i).map fun x => x.rho.toInt).sum (s.mode.count / target.count) v.rho.toInt ∧
        IsRhaz ((groupOf s target.count i).map fun x => (x.theta.toNat : Int)).sum (s.mode.count / target.count)
          v.theta.toNat) s t

/-- R189: `DEMM Mx` to fewer layers: each kept register is the group's member with the largest rho, the lowest index
winning a tie. To as many or more it writes nothing, and a code of 5 to 15 fails. -/
def Obligations.DemmKeepsLargestRho : Prop :=
  (∀ b1 rest, decode (0x1C :: b1 :: rest) = .ok (.demm (hiNibble b1))) ∧ RejectsModeCodes .demm ∧ KeepsAllUpwards .demm ∧
  ∀ (target : Mode) (s : State), target.count < s.mode.count → ∃ t, exec (.demm target.code) s = .next t ∧
    DemotionCompleted target
      (fun i v => ∃ j, inGroup s target.count i j = true ∧ v = s.reg j ∧
        ∀ k, inGroup s target.count i k = true → (s.reg k).rho.toInt ≤ v.rho.toInt ∧
          ((s.reg k).rho.toInt = v.rho.toInt → j.val ≤ k.val)) s t

/-- R181: the mode commands carry their code in the high nibble of byte 1; codes 0 to 4 name the modes M8 to M128, and a mode command with a code of 5 to 15 fails `InvalidMode` and
changes nothing but E, and the run stops. -/
def Obligations.InvalidModeCodesFail : Prop :=
  (∀ b1 rest, [0x18, 0x19, 0x1A, 0x1B, 0x1C].map (fun op => decode (op :: b1 :: rest)) =
    [.ok (.prom (hiNibble b1)), .ok (.demt (hiNibble b1)), .ok (.demx (hiNibble b1)), .ok (.dema (hiNibble b1)),
      .ok (.demm (hiNibble b1))]) ∧
  [Mode.m8, .m16, .m32, .m64, .m128].map Mode.code = [0, 1, 2, 3, 4] ∧
  ∀ (m : Nat) (s : State), 5 ≤ m → m ≤ 15 →
    ∀ i ∈ [Instr.prom m, .demt m, .demx m, .dema m, .demm m],
      ∃ t, exec i s = .next t ∧ FailedWith (.invalidMode m) s t ∧ ∀ u, step t ≠ .next u

/-- R190: promotion never lowers the active count and demotion never raises it; a second identical mode command changes
no register, flag or mode; after a demotion and a promotion back, the registers from the target count up are NULL. -/
def Obligations.ModeChangesAreMonotone : Prop :=
  (∀ (target : Mode) (s : State), ∃ t u, exec (.prom target.code) s = .next t ∧ exec (.prom target.code) t = .next u ∧
    s.mode.count ≤ t.mode.count ∧ u.regs = t.regs ∧ u.mode = t.mode ∧ u.status = t.status) ∧
  (∀ (target : Mode) (s : State),
    ∀ i ∈ [Instr.demt target.code, .demx target.code, .dema target.code, .demm target.code],
      ∃ t u, exec i s = .next t ∧ exec i t = .next u ∧
        t.mode.count ≤ s.mode.count ∧ u.regs = t.regs ∧ u.mode = t.mode ∧ u.status = t.status) ∧
  ∀ (target : Mode) (s : State), target.count < s.mode.count →
    ∀ i ∈ [Instr.demt target.code, .demx target.code, .dema target.code, .demm target.code],
      ∃ t u, exec i s = .next t ∧ exec (.prom s.mode.code) t = .next u ∧ u.mode = s.mode ∧
        ∀ r : Reg, target.count ≤ r.val → pack (u.reg r) = 0x80

/-- R25: MODE is written only by the mode commands, by `HLOAD` and by reset. -/
def Obligations.OnlyModeCommandsWriteMode : Prop :=
  (∀ s t, step s = .next t → t.mode ≠ s.mode →
    ∃ m, 5 > m ∧ decode (bytesAtPc s) ∈ [.ok (.prom m), .ok (.demt m), .ok (.demx m), .ok (.dema m), .ok (.demm m)]) ∧
  ∀ op s, (hostStep op s).2.mode ≠ s.mode → op = .reset ∨ ∃ bytes, op = .hload bytes

/-! ## Control commands -/

/-- R210: `NOP` only advances PC by 1. -/
def Obligations.NopOnlyAdvancesPc : Prop :=
  (∀ rest, decode (0x00 :: rest) = .ok .nop) ∧
  ∀ s, ∃ t, exec .nop s = .next t ∧ ControlCompleted (fun _ => True) (s.pc + 1) s t

/-- R211: `HALT` sets H and advances PC by 1, and the run is then Halted; with H set no step is taken. -/
def Obligations.HaltStopsTheRun : Prop :=
  (∀ rest, decode (0x01 :: rest) = .ok .halt) ∧
  (∀ s, ∃ t, exec .halt s = .next t ∧ t.flag .h = true ∧ ControlCompleted (fun f => f ≠ .h) (s.pc + 1) s t ∧
    t.runStatus = .halted) ∧
  ∀ s t, s.flag .h = true → step s ≠ .next t

/-- R212: `CLRF imm` clears every flag whose mask bit is 1 and keeps the others. -/
def Obligations.ClrfClearsMaskedFlags : Prop :=
  (∀ b1 b2 rest, decode (0x38 :: b1 :: b2 :: rest) = .ok (.clrf b2)) ∧
  ∀ (mask : Byte) (s : State), ∃ t, exec (.clrf mask) s = .next t ∧
    (∀ f, t.flag f = (s.flag f && !getFlag mask f)) ∧
    ControlCompleted (fun f => getFlag mask f = false) (s.pc + 3) s t

/-- R215: `JMP target` writes PC with the 24-bit address, least significant byte first, and changes nothing else; a
target at or past CODE_LEN fails at the next fetch. -/
def Obligations.JmpWritesPc : Prop :=
  (∀ b1 b2 b3 rest, ∃ a, decode (0x40 :: b1 :: b2 :: b3 :: rest) = .ok (.jmp a) ∧
    a.toNat = b1.toNat + 256 * b2.toNat + 65536 * b3.toNat) ∧
  ∀ (a : Addr24) (s : State), ∃ t, exec (.jmp a) s = .next t ∧
    ControlCompleted (fun _ => True) (BitVec.ofNat 32 a.toNat) s t ∧
    (s.codeLen ≤ a.toNat → s.flag .h = false → ∃ u, step t = .next u ∧ FailedWith (.instructionTruncated 1 0) t u)

/-- R216: `JZ target` jumps when Z = 1, else PC advances by 4; a taken jump to or past CODE_LEN fails at the next
fetch. -/
def Obligations.JzJumpsOnZero : Prop :=
  (∀ b1 b2 b3 rest, ∃ a, decode (0x41 :: b1 :: b2 :: b3 :: rest) = .ok (.jz a) ∧
    a.toNat = b1.toNat + 256 * b2.toNat + 65536 * b3.toNat) ∧
  ∀ (a : Addr24) (s : State), ∃ t, exec (.jz a) s = .next t ∧
    ControlCompleted (fun _ => True) (if s.flag .z = true then BitVec.ofNat 32 a.toNat else s.pc + 4) s t ∧
    (s.flag .z = true → s.codeLen ≤ a.toNat → s.flag .h = false →
      ∃ u, step t = .next u ∧ FailedWith (.instructionTruncated 1 0) t u)

/-- R217: `JNZ target` jumps when Z = 0, else PC advances by 4; a taken jump to or past CODE_LEN fails at the next
fetch. -/
def Obligations.JnzJumpsOnNonzero : Prop :=
  (∀ b1 b2 b3 rest, ∃ a, decode (0x42 :: b1 :: b2 :: b3 :: rest) = .ok (.jnz a) ∧
    a.toNat = b1.toNat + 256 * b2.toNat + 65536 * b3.toNat) ∧
  ∀ (a : Addr24) (s : State), ∃ t, exec (.jnz a) s = .next t ∧
    ControlCompleted (fun _ => True) (if s.flag .z = true then s.pc + 4 else BitVec.ofNat 32 a.toNat) s t ∧
    (s.flag .z = false → s.codeLen ≤ a.toNat → s.flag .h = false →
      ∃ u, step t = .next u ∧ FailedWith (.instructionTruncated 1 0) t u)

/-! ## The sequencer -/

/-- R230: when the run is Running and the bytes at PC decode to an instruction, a step is `exec` of that instruction in
that state, and nothing is done around it: the advance of PC is in `exec`. -/
def Obligations.StepRunsDecodedInstruction : Prop :=
  ∀ (s : State) (i : Instr), s.runStatus = .running → decode (bytesAtPc s) = .ok i →
    step s = exec i s ∧ i.wf = true

/-- R51, R52, R54: when the host supplies code outside a run, the fetch at PC reads the bytes at PC, PC + 1, … of the loaded code, four of them or as many as
remain, and none at or past CODE_LEN. -/
def Obligations.FetchReadsCodeAtPc : Prop :=
  ∀ (bytes : List Byte) (s : State), bytes.length ≤ 2 ^ 32 → s.inRun = false →
    ∃ t, hostStep (.loadCode bytes) s = (.done, t) ∧ t.codeLen = bytes.length ∧ t.pc = s.pc ∧
      bytesAtPc t = (bytes.drop s.pc.toNat).take 4

/-- R262: a step that fails, in decode or in the command, sets E, changes nothing else, leaves PC at the failing
instruction, and the run is Faulted: no later step is taken. -/
def Obligations.FailuresChangeOnlyE : Prop :=
  ∀ s t f, step s = .next t → t.lastFailure = some f → FailedWith f s t ∧ ∀ u, step t ≠ .next u

/-- R230, R260, R264: in a Running state a step fails with `f` exactly when the bytes at PC do not decode, for `f`, or
decode to `ROOT` with n = 0 or to a mode command with a code above 4. -/
def Obligations.StepFailsExactlyAsListed : Prop :=
  ∀ s, s.runStatus = .running → ∃ t, step s = .next t ∧ ∀ f,
    (t.lastFailure = some f ↔
      decode (bytesAtPc s) = .error f ∨
      (f = .rootByZero ∧ ∃ rd, decode (bytesAtPc s) = .ok (.root rd 0)) ∨
      ∃ m, 4 < m ∧ f = .invalidMode m ∧
        decode (bytesAtPc s) ∈ [.ok (.prom m), .ok (.demt m), .ok (.demx m), .ok (.dema m), .ok (.demm m)])

/-- R230, R232: a step is taken exactly in a Running state; a stopped run takes none, whatever is in CODE, and no step is
refused. A Faulted run stays Faulted under every host operation but those that start another run: reset, `HLOAD`, and
`HSTAT` with E = 0. That the last does follows R243 and R267 where R232 excepts `HLOAD` alone (log entry 1). That a stopped run answers a fault is the model's choice (log
entry 2). -/
def Obligations.StoppedRunsTakeNoStep : Prop :=
  (∀ s, (∃ t, step s = .next t) ↔ s.runStatus = .running) ∧
  (∀ s, s.runStatus = .halted → step s = .fault .halted) ∧
  (∀ s f, s.runStatus = .faulted f → step s = .fault (.faulted f)) ∧
  (∀ s r, step s ≠ .refused r) ∧
  ∀ s f op, s.runStatus = .faulted f → (hostStep op s).2.runStatus = .faulted f ∨ op = .reset ∨
    (∃ bytes, op = .hload bytes) ∨ ∃ b, op = .hstat b ∧ getFlag b .e = false

/-- R231: after a command that completes, PC is past it modulo 2^32, or the target of a taken jump; a failed command or
decode does not change PC. -/
def Obligations.PcAdvancesBySize : Prop :=
  ∀ s t, step s = .next t →
    (t.lastFailure ≠ none → t.pc = s.pc) ∧
    ∀ i, decode (bytesAtPc s) = .ok i → t.lastFailure = none →
      t.pc.toNat =
        match i with
        | .jmp a => a.toNat
        | .jz a => if s.flag .z = true then a.toNat else (s.pc.toNat + 4) % 2 ^ 32
        | .jnz a => if s.flag .z = true then (s.pc.toNat + 4) % 2 ^ 32 else a.toNat
        | j => (s.pc.toNat + (encode j).length) % 2 ^ 32

/-- R63, R247, R248: no step writes CODE or CODE_LEN; of the host's operations only loading a program does, outside a
run; after a step, while the run is Running, loading a program is refused. That a run begins with its first step and that
a refusal is how the block keeps CODE fixed is the model's (log entries 10 and 15). That a load which changes CODE has at
most 2^32 bytes, so that a longer one changes nothing, is the model's too: R6 and R51 bound CODE_LEN and do not say what a
longer load does (log entry 11). -/
def Obligations.OnlyTheHostLoadsCode : Prop :=
  (∀ s t, step s = .next t → t.code = s.code ∧ t.codeLen = s.codeLen ∧
    (t.runStatus = .running → ∀ bytes, hostStep (.loadCode bytes) t = (.refused, t))) ∧
  ∀ op s, (hostStep op s).2.code ≠ s.code ∨ (hostStep op s).2.codeLen ≠ s.codeLen →
    s.inRun = false ∧ ∃ bytes, op = .loadCode bytes ∧ bytes.length ≤ 2 ^ 32

/-- R37: no command reads or writes SP or FP: from a state that differs only there, a step does the same and keeps them.
Of the host's operations only `HSAVE` reads them, and only `HLOAD` and reset write them: from a state that differs only
there, every other one returns the same, and every one leaves a state that differs at most there. -/
def Obligations.SpAndFpAreUnused : Prop :=
  (∀ (s t : State) (a b : Word), step s = .next t →
    t.sp = s.sp ∧ t.fp = s.fp ∧ step { s with sp := a, fp := b } = .next { t with sp := a, fp := b }) ∧
  (∀ op s, (hostStep op s).2.sp ≠ s.sp ∨ (hostStep op s).2.fp ≠ s.fp → op = .reset ∨ ∃ bytes, op = .hload bytes) ∧
  ∀ (op : HostOp) (s : State) (a b : Word),
    (op ≠ .hsave → (hostStep op { s with sp := a, fp := b }).1 = (hostStep op s).1) ∧
    { (hostStep op { s with sp := a, fp := b }).2 with sp := 0, fp := 0 } = { (hostStep op s).2 with sp := 0, fp := 0 }

/-- R27, with R31, R33, R34, R35, R140, R185: a step sets or clears a flag only where the table of R27 lets its command
do so: Z, N and V change only by `CLRF` or by an ALU command that completes, M is set only by an effective demotion, H
only by `HALT`, E only by a failure, and C and I by no step. -/
def Obligations.FlagsChangeOnlyAsTabled : Prop :=
  ∀ s t f, step s = .next t →
    (s.flag f = false → t.flag f = true →
      (f = .e ∧ t.lastFailure ≠ none) ∨
      ∃ i, decode (bytesAtPc s) = .ok i ∧ maySet s i t.lastFailure.isSome f = true) ∧
    (s.flag f = true → t.flag f = false →
      ∃ i, decode (bytesAtPc s) = .ok i ∧ mayClear i t.lastFailure.isSome f = true)

/-- R27, with R31, R33 and R35: no command reads N, V, C, I or M: with that flag written either way, a step writes the
same registers, mode, PC and other flags, and fails where it failed. -/
def Obligations.UnreadFlagsSteerNothing : Prop :=
  ∀ (s t : State) (f : Flag) (b : Bool), f ∈ [Flag.n, .v, .c, .i, .m] → step s = .next t →
    ∃ u, step (s.setFlag f b) = .next u ∧ u.regs = t.regs ∧ u.mode = t.mode ∧ u.pc = t.pc ∧
      (∀ g, g ≠ f → u.flag g = t.flag g) ∧ u.lastFailure = t.lastFailure ∧ FixedParts t u

/-! ## The invariant -/

/-- The invariant holds after reset: CODE is canonical and nothing is recorded (log entries 1, 4 and 5). -/
def Obligations.ResetMeetsInvariant : Prop := State.reset.inv = true

/-- R51, R63, R260, R261, R264: from every state that meets the invariant, a step leads to one that meets it: CODE stays
canonical within CODE_LEN and the 32-bit address space, and a recorded failure is one the sequencer can raise, with an
unassigned opcode, with found below expected, or with a code of 5 to 15, and stands with E set. The canonical form is the
model's (log entry 4). -/
def Obligations.StepsKeepInvariant : Prop :=
  ∀ s t, s.inv = true → step s = .next t → t.inv = true

/-- R240 to R246, R248, R290: from every state that meets the invariant, a host operation, refused and failed ones too,
leads to one that meets it. It rests on choices of the model: that `HSTAT` with E = 0 forgets the recorded failure, R243
and R267 against R232's words (log entry 1), that CODE is a canonical list (log entry 4), and that a load of more than
2^32 bytes is refused (log entry 11). -/
def Obligations.HostStepsKeepInvariant : Prop :=
  ∀ op s, s.inv = true → (hostStep op s).2.inv = true

/-- R247, R248: the invariant holds in every state that a machine and its host can reach from reset. It rests on the
choices `HostStepsKeepInvariant` names (log entries 1, 4 and 11) and on reset holding no program and no failure (log
entries 1 and 5). -/
def Obligations.ReachableStatesMeetInvariant : Prop :=
  ∀ s, Reaches State.reset s → s.inv = true

/-! ## The codec -/

/-- R103, R104, R105: packing puts rho's two's complement in bits 7:4 and theta in bits 3:0, unpacking reads them there,
and the named constants have the bytes of R105. That unpacking inverts packing on both sides is R104's own inference. -/
def Obligations.PackingIsLossless : Prop :=
  (∀ v, (pack v).toNat = 16 * (v.rho.toInt % 16).toNat + v.theta.toNat) ∧
  (∀ b, (unpack b).rho.toInt = sext4 (b.toNat / 16) ∧ (unpack b).theta.toNat = b.toNat % 16) ∧
  (∀ b, pack (unpack b) = b) ∧ (∀ v, unpack (pack v) = v) ∧
  pack CodecValue.null = 0x80 ∧ pack CodecValue.one = 0x00 ∧ pack CodecValue.i = 0x04 ∧
  pack CodecValue.negOne = 0x08 ∧ pack CodecValue.negI = 0x0C ∧ pack CodecValue.max = 0x70

/-- R101, R102: `cv` clamps rho and reduces theta modulo 16, for all integers; `sat` says whether rho was clamped. -/
def Obligations.ConstructionClampsAndWraps : Prop :=
  ∀ r t : Int, (cv r t).rho.toInt = max (-8) (min 7 r) ∧ ((cv r t).theta.toNat : Int) = t % 16 ∧
    (sat r = true ↔ (cv r t).rho.toInt ≠ r)

/-- R124 with 90_conflicts.md C1: the product with the inverse has theta 0 and rho 0, but rho -1 when rho was -8. -/
def Obligations.ProductWithInverse : Prop :=
  ∀ a : CodecValue, (multiply a (inverse a).1).1 = if a.rho.toInt = -8 then cv (-1) 0 else CodecValue.one

/-- R124 with 90_conflicts.md C2: where `power` neither saturates nor wraps, `root` restores the value. -/
def Obligations.RootOfPowerRestores : Prop :=
  ∀ (a : CodecValue) (n : Nat), n ≠ 0 → -8 ≤ a.rho.toInt * n → a.rho.toInt * n ≤ 7 → a.theta.toNat * n ≤ 15 →
    root (power a n).1 n = .ok (a, false)

/-- R9: the integer rounding of the model is `rhaz`: nearest, halves away from zero, and equal to the real function. -/
def Obligations.RoundingIsHalfAwayFromZero : Prop :=
  ∀ (p : Int) (q : Nat), 0 < q → IsRhaz p q (rhazDiv p q) ∧ rhazDiv p q = rhazReal ((p : ℝ) / q)

/-- R108, R109: the phase table is the cosine and sine of theta·π/8, and the lookup output is 45·theta half-degrees. -/
def Obligations.PhaseTableIsExact : Prop :=
  (∀ theta : Fin 16, phaseCos theta = Real.cos (theta.val * Real.pi / 8) ∧
    phaseSin theta = Real.sin (theta.val * Real.pi / 8)) ∧
  ∀ v : CodecValue, (hdeg v).toNat = 45 * v.theta.toNat ∧ degrees v = (hdeg v).toNat / 2

/-- R111, R112: quantizing the Cartesian value of a codec value gives it back, for each reading of NULL. -/
def Obligations.QuantizeInvertsToCartesian : Prop :=
  ∀ (nullIs : Config.NullCartesian) (v : CodecValue), quantize (toCartesian nullIs v) = v

/-! ## The host port -/

/-- R240, R180: `HREAD` returns the byte, the fields, the phase, whether the register is active, and the active mask; it
changes no state. -/
def Obligations.HreadReturnsRegister : Prop :=
  ∀ (i : Reg) (s : State), ∃ r, hostStep (.hread i) s = (.readResult r, s) ∧
    r.byte = pack (s.reg i) ∧ r.rho = (s.reg i).rho.toInt ∧ r.theta = (s.reg i).theta.toNat ∧
    r.hdeg.toNat = 45 * (s.reg i).theta.toNat ∧ (r.active = true ↔ i.val < s.mode.count) ∧
    r.activeMask.toNat = 2 ^ s.mode.count - 1

/-- R241: `HWRITE` writes the one register, in any mode, and no flag or other state. -/
def Obligations.HwriteWritesOneRegister : Prop :=
  ∀ (i : Reg) (b : Byte) (s : State), ∃ t, hostStep (.hwrite i b) s = (.done, t) ∧ pack (t.reg i) = b ∧
    (∀ r, r ≠ i → t.reg r = s.reg r) ∧ t.status = s.status ∧ t.mode = s.mode ∧ t.pc = s.pc ∧ FixedParts s t

/-- R242, R243: `HSTATR` returns STATUS; `HSTAT` writes it and no other register; writing H = 0 and E = 0 lets every
stopped run step again, and writing H = 0 every Halted one, whatever E is written, from the same PC. That a Halted run
goes on with E written 1 is log entry 1's reading of R243, and that a Faulted one goes on follows R243 against R232's words
(log entry 1). -/
def Obligations.StatusAccessRestartsRuns : Prop :=
  (∀ s, hostStep .hstatr s = (.statusByte s.status, s)) ∧
  ∀ (b : Byte) (s : State), ∃ t, hostStep (.hstat b) s = (.done, t) ∧ t.status = b ∧ (∀ r, t.reg r = s.reg r) ∧
    t.mode = s.mode ∧ t.pc = s.pc ∧ FixedParts s t ∧
    (getFlag b .h = false → getFlag b .e = false → t.runStatus = .running) ∧
    (getFlag b .h = false → s.runStatus = .halted → t.runStatus = .running)

/-- R244, R245, R246: the record is 30 bytes: the registers in order, PC, SP and FP little-endian, STATUS, the mode code;
saving changes no state, and loading a saved record, with any bytes after it, restores the state exactly. -/
def Obligations.RecordLayoutAndRestore : Prop :=
  (∀ s, ∃ bytes, hostStep .hsave s = (.record bytes, s) ∧ bytes.length = 30 ∧
    (∀ i : Reg, byteAt bytes i = pack (s.reg i)) ∧
    (∀ k, k < 4 → byteAt bytes (16 + k) = BitVec.ofNat 8 (s.pc.toNat / 256 ^ k) ∧
      byteAt bytes (20 + k) = BitVec.ofNat 8 (s.sp.toNat / 256 ^ k) ∧
      byteAt bytes (24 + k) = BitVec.ofNat 8 (s.fp.toNat / 256 ^ k)) ∧
    byteAt bytes 28 = s.status ∧ (byteAt bytes 29).toNat = s.mode.code) ∧
  ∀ (s t : State) (extra : List Byte), ∃ u, hostStep (.hload (hsave s ++ extra)) t = (.done, u) ∧
    u.regs = s.regs ∧ u.pc = s.pc ∧ u.sp = s.sp ∧ u.fp = s.fp ∧ u.status = s.status ∧ u.mode = s.mode ∧
    u.code = t.code ∧ u.codeLen = t.codeLen

/-- R246, R263: `HLOAD` of fewer than 30 bytes fails `InvalidState`, checked first; of a mode byte above 4 it fails
`InvalidMode`; a failed one changes no state at all; else it loads every field, with no fold. -/
def Obligations.HloadLoadsOrChangesNothing : Prop :=
  ∀ (bytes : List Byte) (s : State),
    (bytes.length < 30 → hostStep (.hload bytes) s = (.failed .invalidState, s)) ∧
    (30 ≤ bytes.length → 4 < (byteAt bytes 29).toNat →
      hostStep (.hload bytes) s = (.failed (.invalidMode (byteAt bytes 29).toNat), s)) ∧
    (30 ≤ bytes.length → (byteAt bytes 29).toNat ≤ 4 → ∃ t, hostStep (.hload bytes) s = (.done, t) ∧
      (∀ i : Reg, pack (t.reg i) = byteAt bytes i) ∧
      t.pc.toNat = (byteAt bytes 16).toNat + 2 ^ 8 * (byteAt bytes 17).toNat + 2 ^ 16 * (byteAt bytes 18).toNat
        + 2 ^ 24 * (byteAt bytes 19).toNat ∧
      t.sp.toNat = (byteAt bytes 20).toNat + 2 ^ 8 * (byteAt bytes 21).toNat + 2 ^ 16 * (byteAt bytes 22).toNat
        + 2 ^ 24 * (byteAt bytes 23).toNat ∧
      t.fp.toNat = (byteAt bytes 24).toNat + 2 ^ 8 * (byteAt bytes 25).toNat + 2 ^ 16 * (byteAt bytes 26).toNat
        + 2 ^ 24 * (byteAt bytes 27).toNat ∧
      t.status = byteAt bytes 28 ∧ t.mode.code = (byteAt bytes 29).toNat ∧ t.code = s.code ∧ t.codeLen = s.codeLen)

/-- R267: after a failure, clearing E lets the sequencer fetch again at PC, and the unchanged failing instruction fails
again, with the same state (what counts as a restart is log entry 1). -/
def Obligations.ClearedFailureFailsAgain : Prop :=
  ∀ s t f, step s = .next t → t.lastFailure = some f →
    ∃ u, hostStep (.hstat (putFlag t.status .e false)) t = (.done, u) ∧ u.runStatus = .running ∧ step u = .next t

/-! ## Text and instances -/

/-- R83, R86: reading the canonical text of an instruction an assembler can write gives the instruction back. -/
def Obligations.DisassemblyReadsBack : Prop :=
  ∀ (i : Instr) (labels : Labels), i.assemblable = true → readInstr labels (disassemble i) = .ok i

/-- R42, R272: instances share nothing: a step of instance `k`, or a host operation on it, makes it what its own state
alone gives, whatever the other instances hold, and leaves every other instance as it was. An instance with no next
state stays as it is (log entry 2). -/
def Obligations.InstancesShareNothing : Prop :=
  ∀ (ms : Instances) (k : Nat) (op : HostOp),
    (∀ s, ms[k]? = some s →
      (∀ t, step s = .next t → (ms.stepAt k)[k]? = some t) ∧
      ((∀ t, step s ≠ .next t) → (ms.stepAt k)[k]? = some s) ∧
      (ms.hostAt k op)[k]? = some (hostStep op s).2) ∧
    ∀ j, j ≠ k → (ms.stepAt k)[j]? = ms[j]? ∧ (ms.hostAt k op)[j]? = ms[j]?
end

