-- ==== Sys2Proof/Laws/Codec.lean ====
section
/-! SUPPORT. Laws of the codec value: what construction, packing and rounding give, in exact integers. -/

namespace Sys2Proof

theorem clamp_bounds (x : Int) : -8 ≤ clamp x ∧ clamp x ≤ 7 := by
  unfold clamp; omega

theorem clamp_of_mem {x : Int} (lo : -8 ≤ x) (hi : x ≤ 7) : clamp x = x := by
  unfold clamp; omega

theorem sat_eq_true_iff (r : Int) : sat r = true ↔ r < -8 ∨ 7 < r := by
  simp [sat]

theorem sat_eq_false_of_mem {r : Int} (lo : -8 ≤ r) (hi : r ≤ 7) : sat r = false := by
  simp [sat]; omega

theorem CodecValue.rho_bounds (v : CodecValue) : -8 ≤ v.rho.toInt ∧ v.rho.toInt ≤ 7 := by
  have h1 := BitVec.le_toInt v.rho
  have h2 := BitVec.toInt_lt (x := v.rho)
  norm_num at h1 h2; omega

theorem CodecValue.theta_lt (v : CodecValue) : v.theta.toNat < 16 := v.theta.isLt

@[simp] theorem cv_rho (r t : Int) : (cv r t).rho.toInt = clamp r := by
  have := clamp_bounds r
  simp [cv, BitVec.toInt_ofInt, Int.bmod_def]; omega

@[simp] theorem cv_theta (r t : Int) : ((cv r t).theta.toNat : Int) = t % 16 := by
  simp [cv, BitVec.toNat_ofInt]; omega

theorem codecValue_ext {a b : CodecValue} (hr : a.rho.toInt = b.rho.toInt) (ht : a.theta.toNat = b.theta.toNat) :
    a = b := by
  cases a; cases b
  simp only [CodecValue.mk.injEq]
  exact ⟨BitVec.eq_of_toInt_eq hr, BitVec.eq_of_toNat_eq ht⟩

/-- Construction from a value's own fields gives the value back (R101, R106). -/
theorem cv_self (v : CodecValue) : cv v.rho.toInt v.theta.toNat = v := by
  have hb := v.rho_bounds
  have ht := v.theta_lt
  refine codecValue_ext ?_ ?_
  · rw [cv_rho, clamp_of_mem hb.1 hb.2]
  · have := cv_theta v.rho.toInt v.theta.toNat; omega

@[simp] theorem unpack_pack (v : CodecValue) : unpack (pack v) = v := by
  have h : ∀ r t : BitVec 4, unpack (pack ⟨r, t⟩) = ⟨r, t⟩ := by decide
  exact h v.rho v.theta

@[simp] theorem pack_unpack (b : Byte) : pack (unpack b) = b := by
  revert b; decide

theorem pack_injective {a b : CodecValue} (h : pack a = pack b) : a = b := by
  rw [← unpack_pack a, h, unpack_pack]

theorem pack_null : pack CodecValue.null = 0x80 := by decide

theorem eq_null_iff (v : CodecValue) : v = CodecValue.null ↔ pack v = 0x80 :=
  ⟨fun h => h ▸ pack_null, fun h => pack_injective (h.trans pack_null.symm)⟩

/-- A rounded quotient is within half of the exact one. -/
theorem rhazDiv_near (p : Int) {q : Nat} (hq : 0 < q) :
    2 * (q * rhazDiv p q - p) ≤ q ∧ -(q : Int) ≤ 2 * (q * rhazDiv p q - p) := by
  have hq' : (0 : Int) < 2 * q := by omega
  unfold rhazDiv
  split
  · have h1 := Int.mul_ediv_add_emod (2 * p + q) (2 * q)
    have h2 := Int.emod_nonneg (2 * p + q) (ne_of_gt hq')
    have h3 := Int.emod_lt_of_pos (2 * p + q) hq'
    generalize (2 * p + q) / (2 * (q : Int)) = k at *
    constructor <;> nlinarith
  · have h1 := Int.mul_ediv_add_emod (2 * -p + q) (2 * q)
    have h2 := Int.emod_nonneg (2 * -p + q) (ne_of_gt hq')
    have h3 := Int.emod_lt_of_pos (2 * -p + q) hq'
    generalize (2 * -p + q) / (2 * (q : Int)) = k at *
    constructor <;> nlinarith

/-- A rounded quotient of a sum of `q` terms, each between two bounds, stays between them. -/
theorem rhazDiv_bounds {p lo hi : Int} {q : Nat} (hq : 0 < q) (hlo : lo * q ≤ p) (hhi : p ≤ hi * q) :
    lo ≤ rhazDiv p q ∧ rhazDiv p q ≤ hi := by
  obtain ⟨h1, h2⟩ := rhazDiv_near p hq
  have hq' : (0 : Int) < q := by omega
  constructor
  · by_contra h
    have : rhazDiv p q + 1 ≤ lo := by omega
    nlinarith
  · by_contra h
    have : hi + 1 ≤ rhazDiv p q := by omega
    nlinarith

end Sys2Proof
end

