-- ==== Sys2Proof/Laws/Decode.lean ====
section
/-! SUPPORT. Laws of the decoder and encoder: fields, the opcode table, and when decoding answers what. -/

namespace Sys2Proof

@[simp] theorem hiNibble_join (h l : Fin 16) : hiNibble (joinNibbles h l) = h := by
  apply Fin.ext; simp only [hiNibble, joinNibbles, BitVec.toNat_ofNat]; omega

@[simp] theorem loNibble_join (h l : Fin 16) : loNibble (joinNibbles h l) = l := by
  apply Fin.ext; simp only [loNibble, joinNibbles, BitVec.toNat_ofNat]; omega

theorem hiNibble_joinNat (h l : Nat) : (hiNibble (joinNibbles h l)).val = h % 16 := by
  simp only [hiNibble, joinNibbles, BitVec.toNat_ofNat]; omega

theorem loNibble_joinNat (h l : Nat) : (loNibble (joinNibbles h l)).val = l % 16 := by
  simp only [loNibble, joinNibbles, BitVec.toNat_ofNat]; omega

@[simp] theorem join_nibbles (b : Byte) : joinNibbles (hiNibble b) (loNibble b) = b := by
  apply BitVec.eq_of_toNat_eq
  have := b.isLt
  simp only [hiNibble, loNibble, joinNibbles, BitVec.toNat_ofNat]; omega

@[simp] theorem joinAddr_bytes (a : Addr24) : joinAddr (addrByte a 0) (addrByte a 1) (addrByte a 2) = a := by
  apply BitVec.eq_of_toNat_eq
  have := a.isLt
  simp only [joinAddr, addrByte, BitVec.toNat_append, BitVec.extractLsb'_toNat, Nat.shiftRight_eq_div_pow]
  rw [← Nat.shiftLeft_add_eq_or_of_lt (by omega), ← Nat.shiftLeft_add_eq_or_of_lt (by omega)]
  simp only [Nat.shiftLeft_eq]
  norm_num
  omega

theorem joinAddr_toNat (b1 b2 b3 : Byte) :
    (joinAddr b1 b2 b3).toNat = b1.toNat + 256 * b2.toNat + 65536 * b3.toNat := by
  have h1 := b1.isLt; have h2 := b2.isLt; have h3 := b3.isLt
  simp only [joinAddr, BitVec.toNat_append]
  rw [← Nat.shiftLeft_add_eq_or_of_lt (by omega), ← Nat.shiftLeft_add_eq_or_of_lt (by omega)]
  simp only [Nat.shiftLeft_eq]
  omega

@[simp] theorem addrByte_join (b1 b2 b3 : Byte) :
    addrByte (joinAddr b1 b2 b3) 0 = b1 ∧ addrByte (joinAddr b1 b2 b3) 1 = b2 ∧ addrByte (joinAddr b1 b2 b3) 2 = b3 := by
  have h1 := b1.isLt; have h2 := b2.isLt; have h3 := b3.isLt
  have h := joinAddr_toNat b1 b2 b3
  refine ⟨?_, ?_, ?_⟩ <;> apply BitVec.eq_of_toNat_eq <;>
    simp only [addrByte, BitVec.extractLsb'_toNat, Nat.shiftRight_eq_div_pow, h] <;> omega

/-- No two rows of the opcode map have one opcode byte. -/
theorem opcodeTable_distinct : (opcodeTable.map OpcodeRow.opcode).Nodup := by decide

theorem decode_nil : decode [] = .error (.instructionTruncated 1 0) := rfl

/-- An unassigned first byte, whatever follows (30_encoding.md R79). -/
theorem decode_unassigned {op : Byte} (h : opcodeRow op = none) (rest : List Byte) :
    decode (op :: rest) = .error (.invalidOpcode op) := by
  simp [decode, h]

/-- An assigned first byte with too few bytes after it (30_encoding.md R80). -/
theorem decode_truncated {op : Byte} {row : OpcodeRow} (h : opcodeRow op = some row) {rest : List Byte}
    (hlen : rest.length + 1 < row.format.size) :
    decode (op :: rest) = .error (.instructionTruncated row.format.size (rest.length + 1)) := by
  simp [decode, h, hlen]

/-- An assigned first byte with enough bytes after it (30_encoding.md R80). -/
theorem decode_complete {op : Byte} {row : OpcodeRow} (h : opcodeRow op = some row) {rest : List Byte}
    (hlen : row.format.size ≤ rest.length + 1) :
    decode (op :: rest) = .ok (row.build (fieldsOf (op :: rest))) := by
  simp [decode, h, Nat.not_lt.mpr hlen]

/-- Everything decoding can answer. -/
theorem decode_cases (bytes : List Byte) :
    (bytes = [] ∧ decode bytes = .error (.instructionTruncated 1 0)) ∨
    (∃ op rest, bytes = op :: rest ∧ opcodeRow op = none ∧ decode bytes = .error (.invalidOpcode op)) ∨
    (∃ op rest row, bytes = op :: rest ∧ opcodeRow op = some row ∧ rest.length + 1 < row.format.size ∧
      decode bytes = .error (.instructionTruncated row.format.size (rest.length + 1))) ∨
    (∃ op rest row, bytes = op :: rest ∧ opcodeRow op = some row ∧ row.format.size ≤ rest.length + 1 ∧
      decode bytes = .ok (row.build (fieldsOf (op :: rest)))) := by
  cases bytes with
  | nil => exact .inl ⟨rfl, rfl⟩
  | cons op rest =>
    right
    cases hrow : opcodeRow op with
    | none => exact .inl ⟨op, rest, rfl, hrow, decode_unassigned hrow rest⟩
    | some row =>
      right
      by_cases hlen : rest.length + 1 < row.format.size
      · exact .inl ⟨op, rest, row, rfl, hrow, hlen, decode_truncated hrow hlen⟩
      · exact .inr ⟨op, rest, row, rfl, hrow, Nat.not_lt.mp hlen, decode_complete hrow (Nat.not_lt.mp hlen)⟩

theorem opcodeRow_mem {op : Byte} {row : OpcodeRow} (h : opcodeRow op = some row) :
    row ∈ opcodeTable ∧ row.opcode = op := by
  refine ⟨List.mem_of_find?_eq_some h, ?_⟩
  simpa using List.find?_some h

/-- A row builds an instruction of its own format and opcode, with operands that fit their fields. -/
theorem build_wf {row : OpcodeRow} (h : row ∈ opcodeTable) (f : Fields) :
    (row.build f).wf = true ∧ (row.build f).format = row.format ∧ (encode (row.build f)).head? = some row.opcode := by
  have h8 := f.imm8.isLt
  simp only [opcodeTable, List.mem_cons, List.not_mem_nil, or_false] at h
  rcases h with rfl | rfl | rfl | rfl | rfl | rfl | rfl | rfl | rfl | rfl | rfl | rfl | rfl | rfl | rfl | rfl | rfl | rfl |
    rfl | rfl | rfl <;>
    simp [Instr.wf, Instr.format, encode, encodeB, encodeC, encodeD, modeFieldFits, exponentFits] <;> omega

/-- What decodes is well-formed, and its bytes were there. -/
theorem decode_ok_wf {bytes : List Byte} {i : Instr} (h : decode bytes = .ok i) :
    i.wf = true ∧ i.size ≤ bytes.length := by
  rcases decode_cases bytes with ⟨_, hd⟩ | ⟨_, _, _, _, hd⟩ | ⟨_, _, _, _, _, _, hd⟩ | ⟨op, rest, row, rfl, hrow, hlen, hd⟩
  · rw [hd] at h; cases h
  · rw [hd] at h; cases h
  · rw [hd] at h; cases h
  · rw [hd] at h
    obtain ⟨hwf, hfmt, -⟩ := build_wf (opcodeRow_mem hrow).1 (fieldsOf (op :: rest))
    cases h
    exact ⟨hwf, by simpa [Instr.size, hfmt] using hlen⟩

/-- The encoding has the size of its format. -/
theorem encode_length (i : Instr) : (encode i).length = i.size := by
  cases i <;> rfl

/-- A format is one to four bytes long. -/
theorem format_size_bounds (f : Format) : 1 ≤ f.size ∧ f.size ≤ 4 := by
  cases f <;> simp [Format.size]

end Sys2Proof
end

