-- ==== Sys2Proof/Laws/Flags.lean ====
section
/-! SUPPORT. Laws of the status register: reading a flag after each flag computation. -/

namespace Sys2Proof.Machine

@[simp] theorem getFlag_putFlag_self (st : Byte) (f : Flag) (b : Bool) : getFlag (putFlag st f b) f = b := by
  cases f <;> cases b <;> simp [getFlag, putFlag, Flag.bit]

theorem getFlag_putFlag_of_ne (st : Byte) {f g : Flag} (h : g ≠ f) (b : Bool) :
    getFlag (putFlag st f b) g = getFlag st g := by
  cases f <;> cases g <;> first | exact absurd rfl h | cases b <;> simp [getFlag, putFlag, Flag.bit]

@[simp] theorem getFlag_setFlags_z (st : Byte) (v : CodecValue) (b : Bool) :
    getFlag (setFlags st v b) .z = decide (v = CodecValue.null) := by
  simp [setFlags, getFlag_putFlag_of_ne]

@[simp] theorem getFlag_setFlags_n (st : Byte) (v : CodecValue) (b : Bool) :
    getFlag (setFlags st v b) .n = decide (v.rho.toInt < 0) := by
  simp [setFlags, getFlag_putFlag_of_ne]

@[simp] theorem getFlag_setFlags_v (st : Byte) (v : CodecValue) (b : Bool) : getFlag (setFlags st v b) .v = b := by
  simp [setFlags]

theorem getFlag_setFlags_other (st : Byte) (v : CodecValue) (b : Bool) {f : Flag}
    (hz : f ≠ .z) (hn : f ≠ .n) (hv : f ≠ .v) : getFlag (setFlags st v b) f = getFlag st f := by
  simp [setFlags, getFlag_putFlag_of_ne, hz, hn, hv]

/-- `CLRF`: a flag is cleared exactly where the mask has its bit. -/
theorem getFlag_clearFlags (st mask : Byte) (f : Flag) :
    getFlag (clearFlags st mask) f = (getFlag st f && !getFlag mask f) := by
  cases f <;> simp [getFlag, clearFlags, Flag.bit]

/-- A status byte is its eight flags. -/
theorem status_ext {a b : Byte} (h : ∀ f, getFlag a f = getFlag b f) : a = b := by
  apply BitVec.eq_of_getLsbD_eq
  intro i hi
  have hz := h .z; have hn := h .n; have hv := h .v; have hc := h .c
  have hh := h .h; have hi' := h .i; have he := h .e; have hm := h .m
  simp only [getFlag, Flag.bit] at hz hn hv hc hh hi' he hm
  match i, hi with
  | 0, _ => exact hz
  | 1, _ => exact hn
  | 2, _ => exact hv
  | 3, _ => exact hc
  | 4, _ => exact hh
  | 5, _ => exact hi'
  | 6, _ => exact he
  | 7, _ => exact hm

@[simp] theorem flag_setFlag_self (s : State) (f : Flag) (b : Bool) : (s.setFlag f b).flag f = b := by
  simp [State.flag, State.setFlag]

theorem flag_setFlag_of_ne (s : State) {f g : Flag} (h : g ≠ f) (b : Bool) : (s.setFlag f b).flag g = s.flag g :=
  getFlag_putFlag_of_ne s.status h b

end Sys2Proof.Machine
end

