-- ==== Sys2Proof/Laws/Memory.lean ====
section
/-! SUPPORT. Laws of the code space: reading after writing, and that every operation keeps the canonical form. -/

namespace Sys2Proof.Memory

theorem risingFrom_mono {lo lo' : Nat} (h : lo' ≤ lo) {m : List Host.Cell} (hm : risingFrom lo m = true) :
    risingFrom lo' m = true := by
  cases m with
  | nil => rfl
  | cons c rest =>
    obtain ⟨k, v⟩ := c
    simp only [risingFrom, Bool.and_eq_true, decide_eq_true_eq] at hm ⊢
    exact ⟨⟨by omega, hm.1.2⟩, hm.2⟩

/-- An address below every listed one reads as unlisted. -/
theorem read_below {lo a : Nat} (h : a < lo) {m : List Host.Cell} (hm : risingFrom lo m = true) :
    read m a = Config.unlistedByte := by
  induction m generalizing lo with
  | nil => rfl
  | cons c rest ih =>
    obtain ⟨k, v⟩ := c
    simp only [risingFrom, Bool.and_eq_true, decide_eq_true_eq] at hm
    have hk : k ≠ a := by omega
    simp only [read, hk, if_false]
    exact ih (lo := k + 1) (by omega) hm.2

theorem risingFrom_cons {lo a : Nat} {b : Byte} (h : lo ≤ a) {m : List Host.Cell} (hm : risingFrom (a + 1) m = true) :
    risingFrom lo (cons a b m) = true := by
  unfold cons
  split
  · exact risingFrom_mono (by omega) hm
  · simp_all [risingFrom]

theorem read_cons {a x : Nat} {b : Byte} {m : List Host.Cell} (hm : risingFrom (a + 1) m = true) :
    read (cons a b m) x = if x = a then b else read m x := by
  unfold cons
  by_cases hb : b = Config.unlistedByte
  · rw [if_pos hb]
    split
    · subst x; rw [hb]; exact read_below (by omega) hm
    · rfl
  · rw [if_neg hb]
    by_cases hx : x = a
    · simp [read, hx]
    · simp [read, hx, Ne.symm hx]

theorem risingFrom_write {lo a : Nat} (h : lo ≤ a) (b : Byte) {m : List Host.Cell} (hm : risingFrom lo m = true) :
    risingFrom lo (write m a b) = true := by
  induction m generalizing lo with
  | nil => exact risingFrom_cons h rfl
  | cons c rest ih =>
    obtain ⟨k, v⟩ := c
    have hm' := hm
    simp only [risingFrom, Bool.and_eq_true, decide_eq_true_eq] at hm'
    unfold write
    split
    · next hk =>
      simp only [risingFrom, Bool.and_eq_true, decide_eq_true_eq]
      exact ⟨hm'.1, ih (by omega) hm'.2⟩
    · split
      · next hk => subst hk; exact risingFrom_cons hm'.1.1 hm'.2
      · next hlt hne =>
        refine risingFrom_cons h ?_
        simp only [risingFrom, Bool.and_eq_true, decide_eq_true_eq]
        exact ⟨⟨by omega, hm'.1.2⟩, hm'.2⟩

/-- Read after write: the byte written at its address, the old byte at every other. -/
theorem read_write_from {lo a x : Nat} (b : Byte) {m : List Host.Cell} (hm : risingFrom lo m = true) :
    read (write m a b) x = if x = a then b else read m x := by
  induction m generalizing lo with
  | nil => exact read_cons rfl
  | cons c rest ih =>
    obtain ⟨k, v⟩ := c
    have hm' := hm
    simp only [risingFrom, Bool.and_eq_true, decide_eq_true_eq] at hm'
    unfold write
    split
    · next hk =>
      simp only [read]
      rw [ih hm'.2]
      by_cases hx : k = x
      · subst hx; simp [Nat.ne_of_lt hk]
      · simp [hx]
    · split
      · next hk =>
        subst hk
        rw [read_cons hm'.2]
        by_cases hx : x = k
        · simp [hx]
        · simp [read, hx, Ne.symm hx]
      · next hlt hne =>
        refine read_cons ?_
        simp only [risingFrom, Bool.and_eq_true, decide_eq_true_eq]
        exact ⟨⟨by omega, hm'.1.2⟩, hm'.2⟩

theorem read_write {m : List Host.Cell} (hm : wf m = true) (a x : Nat) (b : Byte) :
    read (write m a b) x = if x = a then b else read m x :=
  read_write_from b hm

theorem write_wf {m : List Host.Cell} (hm : wf m = true) (a : Nat) (b : Byte) : wf (write m a b) = true :=
  risingFrom_write (Nat.zero_le a) b hm

theorem writeBytes_wf {m : List Host.Cell} (hm : wf m = true) (base : Nat) (bytes : List Byte) :
    wf (writeBytes m base bytes) = true := by
  induction bytes generalizing m base with
  | nil => exact hm
  | cons b rest ih => exact ih (write_wf hm base b) (base + 1)

/-- Reading after a byte string was written: its bytes at their addresses, the old bytes at every other. -/
theorem read_writeBytes {m : List Host.Cell} (hm : wf m = true) (base : Nat) (bytes : List Byte) (x : Nat) :
    read (writeBytes m base bytes) x =
      if base ≤ x ∧ x < base + bytes.length then bytes.getD (x - base) 0 else read m x := by
  induction bytes generalizing m base with
  | nil =>
    have h : ¬(base ≤ x ∧ x < base + 0) := by omega
    simp only [writeBytes, List.length_nil, if_neg h]
  | cons b rest ih =>
    rw [writeBytes, ih (write_wf hm base b), read_write hm]
    by_cases hx : x = base
    · subst hx; simp
    · by_cases h : base + 1 ≤ x ∧ x < base + 1 + rest.length
      · have h2 : base ≤ x ∧ x < base + (b :: rest).length := by simp; omega
        rw [if_pos h, if_pos h2, show x - base = (x - (base + 1)) + 1 by omega, List.getD_cons_succ]
      · have h2 : ¬(base ≤ x ∧ x < base + (b :: rest).length) := by simp; omega
        rw [if_neg h, if_neg h2, if_neg hx]

theorem risingFrom_ofBytes (base : Nat) (bytes : List Byte) : risingFrom base (ofBytes base bytes) = true := by
  induction bytes generalizing base with
  | nil => rfl
  | cons b rest ih => exact risingFrom_cons (Nat.le_refl _) (ih (base + 1))

theorem ofBytes_wf (bytes : List Byte) : wf (ofBytes 0 bytes) = true := risingFrom_ofBytes 0 bytes

theorem read_ofBytes_from (base : Nat) (bytes : List Byte) (k : Nat) :
    read (ofBytes base bytes) (base + k) = bytes.getD k 0 := by
  induction bytes generalizing base k with
  | nil => rfl
  | cons b rest ih =>
    rw [ofBytes, read_cons (risingFrom_ofBytes (base + 1) rest)]
    cases k with
    | zero => simp
    | succ k => rw [if_neg (by omega), List.getD_cons_succ, ← ih (base + 1) k, show base + (k + 1) = base + 1 + k by omega]

/-- A loaded byte array reads as its bytes. -/
theorem read_ofBytes (bytes : List Byte) (a : Nat) : read (ofBytes 0 bytes) a = bytes.getD a 0 := by
  have := read_ofBytes_from 0 bytes a
  rwa [Nat.zero_add] at this

theorem below_cons {len a : Nat} (h : a < len) (b : Byte) {m : List Host.Cell} (hm : below len m = true) :
    below len (cons a b m) = true := by
  unfold cons
  split
  · exact hm
  · simp only [below, List.all_cons, Bool.and_eq_true, decide_eq_true_eq] at hm ⊢
    exact ⟨h, hm⟩

theorem below_mono {len len' : Nat} (h : len ≤ len') {m : List Host.Cell} (hm : below len m = true) :
    below len' m = true := by
  simp only [below, List.all_eq_true, decide_eq_true_eq] at hm ⊢
  exact fun c hc => Nat.lt_of_lt_of_le (hm c hc) h

theorem ofBytes_below (base : Nat) (bytes : List Byte) : below (base + bytes.length) (ofBytes base bytes) = true := by
  induction bytes generalizing base with
  | nil => rfl
  | cons b rest ih =>
    refine below_cons (by simp) b ?_
    have := ih (base + 1)
    rwa [List.length_cons, show base + (rest.length + 1) = base + 1 + rest.length by omega]

theorem write_below {len a : Nat} (h : a < len) (b : Byte) {m : List Host.Cell} (hm : below len m = true) :
    below len (write m a b) = true := by
  induction m with
  | nil => exact below_cons h b rfl
  | cons c rest ih =>
    obtain ⟨k, v⟩ := c
    have hr : below len rest = true := by
      simp only [below, List.all_cons, Bool.and_eq_true] at hm ⊢
      exact hm.2
    unfold write
    split
    · have := ih hr
      simp only [below, List.all_cons, Bool.and_eq_true] at hm this ⊢
      exact ⟨hm.1, this⟩
    · split
      · exact below_cons h b hr
      · exact below_cons h b hm

theorem writeBytes_below {len : Nat} {m : List Host.Cell} (hm : below len m = true) (base : Nat) (bytes : List Byte)
    (h : base + bytes.length ≤ len) : below len (writeBytes m base bytes) = true := by
  induction bytes generalizing m base with
  | nil => exact hm
  | cons b rest ih =>
    simp only [List.length_cons] at h
    exact ih (write_below (by omega) b hm) (base + 1) (by omega)

end Sys2Proof.Memory
end

