-- ==== Sys2Proof/Laws/State.lean ====
section
/-! SUPPORT. One lemma per field per update of the state, so that no proof unfolds a record update. -/

namespace Sys2Proof.Machine

@[simp] theorem setReg_regs (s : State) (i : Reg) (v : CodecValue) : (s.setReg i v).regs = s.regs.set i v := rfl
@[simp] theorem setReg_mode (s : State) (i : Reg) (v : CodecValue) : (s.setReg i v).mode = s.mode := rfl
@[simp] theorem setReg_status (s : State) (i : Reg) (v : CodecValue) : (s.setReg i v).status = s.status := rfl
@[simp] theorem setReg_pc (s : State) (i : Reg) (v : CodecValue) : (s.setReg i v).pc = s.pc := rfl
@[simp] theorem setReg_sp (s : State) (i : Reg) (v : CodecValue) : (s.setReg i v).sp = s.sp := rfl
@[simp] theorem setReg_fp (s : State) (i : Reg) (v : CodecValue) : (s.setReg i v).fp = s.fp := rfl
@[simp] theorem setReg_code (s : State) (i : Reg) (v : CodecValue) : (s.setReg i v).code = s.code := rfl
@[simp] theorem setReg_codeLen (s : State) (i : Reg) (v : CodecValue) : (s.setReg i v).codeLen = s.codeLen := rfl
@[simp] theorem setReg_lastFailure (s : State) (i : Reg) (v : CodecValue) : (s.setReg i v).lastFailure = s.lastFailure := rfl
@[simp] theorem setReg_begun (s : State) (i : Reg) (v : CodecValue) : (s.setReg i v).begun = s.begun := rfl

@[simp] theorem setFlag_regs (s : State) (f : Flag) (b : Bool) : (s.setFlag f b).regs = s.regs := rfl
@[simp] theorem setFlag_mode (s : State) (f : Flag) (b : Bool) : (s.setFlag f b).mode = s.mode := rfl
@[simp] theorem setFlag_status (s : State) (f : Flag) (b : Bool) : (s.setFlag f b).status = putFlag s.status f b := rfl
@[simp] theorem setFlag_pc (s : State) (f : Flag) (b : Bool) : (s.setFlag f b).pc = s.pc := rfl
@[simp] theorem setFlag_sp (s : State) (f : Flag) (b : Bool) : (s.setFlag f b).sp = s.sp := rfl
@[simp] theorem setFlag_fp (s : State) (f : Flag) (b : Bool) : (s.setFlag f b).fp = s.fp := rfl
@[simp] theorem setFlag_code (s : State) (f : Flag) (b : Bool) : (s.setFlag f b).code = s.code := rfl
@[simp] theorem setFlag_codeLen (s : State) (f : Flag) (b : Bool) : (s.setFlag f b).codeLen = s.codeLen := rfl
@[simp] theorem setFlag_lastFailure (s : State) (f : Flag) (b : Bool) : (s.setFlag f b).lastFailure = s.lastFailure := rfl
@[simp] theorem setFlag_begun (s : State) (f : Flag) (b : Bool) : (s.setFlag f b).begun = s.begun := rfl

@[simp] theorem writeResult_regs (rd : Reg) (r : CodecResult) (s : State) : (writeResult rd r s).regs = s.regs.set rd r.1 := rfl
@[simp] theorem writeResult_mode (rd : Reg) (r : CodecResult) (s : State) : (writeResult rd r s).mode = s.mode := rfl
@[simp] theorem writeResult_status (rd : Reg) (r : CodecResult) (s : State) : (writeResult rd r s).status = setFlags s.status r.1 r.2 := rfl
@[simp] theorem writeResult_pc (rd : Reg) (r : CodecResult) (s : State) : (writeResult rd r s).pc = s.pc := rfl
@[simp] theorem writeResult_sp (rd : Reg) (r : CodecResult) (s : State) : (writeResult rd r s).sp = s.sp := rfl
@[simp] theorem writeResult_fp (rd : Reg) (r : CodecResult) (s : State) : (writeResult rd r s).fp = s.fp := rfl
@[simp] theorem writeResult_code (rd : Reg) (r : CodecResult) (s : State) : (writeResult rd r s).code = s.code := rfl
@[simp] theorem writeResult_codeLen (rd : Reg) (r : CodecResult) (s : State) : (writeResult rd r s).codeLen = s.codeLen := rfl
@[simp] theorem writeResult_lastFailure (rd : Reg) (r : CodecResult) (s : State) : (writeResult rd r s).lastFailure = s.lastFailure := rfl
@[simp] theorem writeResult_begun (rd : Reg) (r : CodecResult) (s : State) : (writeResult rd r s).begun = s.begun := rfl

@[simp] theorem raise_regs (f : Failure) (s : State) : (raise f s).regs = s.regs := rfl
@[simp] theorem raise_mode (f : Failure) (s : State) : (raise f s).mode = s.mode := rfl
@[simp] theorem raise_status (f : Failure) (s : State) : (raise f s).status = putFlag s.status .e true := rfl
@[simp] theorem raise_pc (f : Failure) (s : State) : (raise f s).pc = s.pc := rfl
@[simp] theorem raise_sp (f : Failure) (s : State) : (raise f s).sp = s.sp := rfl
@[simp] theorem raise_fp (f : Failure) (s : State) : (raise f s).fp = s.fp := rfl
@[simp] theorem raise_code (f : Failure) (s : State) : (raise f s).code = s.code := rfl
@[simp] theorem raise_codeLen (f : Failure) (s : State) : (raise f s).codeLen = s.codeLen := rfl
@[simp] theorem raise_lastFailure (f : Failure) (s : State) : (raise f s).lastFailure = some f := rfl
@[simp] theorem raise_begun (f : Failure) (s : State) : (raise f s).begun = true := rfl

@[simp] theorem hwrite_regs (i : Reg) (b : Byte) (s : State) : (hwrite i b s).regs = s.regs.set i (unpack b) := rfl
@[simp] theorem hwrite_mode (i : Reg) (b : Byte) (s : State) : (hwrite i b s).mode = s.mode := rfl
@[simp] theorem hwrite_status (i : Reg) (b : Byte) (s : State) : (hwrite i b s).status = s.status := rfl
@[simp] theorem hwrite_pc (i : Reg) (b : Byte) (s : State) : (hwrite i b s).pc = s.pc := rfl
@[simp] theorem hwrite_sp (i : Reg) (b : Byte) (s : State) : (hwrite i b s).sp = s.sp := rfl
@[simp] theorem hwrite_fp (i : Reg) (b : Byte) (s : State) : (hwrite i b s).fp = s.fp := rfl
@[simp] theorem hwrite_code (i : Reg) (b : Byte) (s : State) : (hwrite i b s).code = s.code := rfl
@[simp] theorem hwrite_codeLen (i : Reg) (b : Byte) (s : State) : (hwrite i b s).codeLen = s.codeLen := rfl
@[simp] theorem hwrite_lastFailure (i : Reg) (b : Byte) (s : State) : (hwrite i b s).lastFailure = s.lastFailure := rfl
@[simp] theorem hwrite_begun (i : Reg) (b : Byte) (s : State) : (hwrite i b s).begun = s.begun := rfl

@[simp] theorem hstat_regs (b : Byte) (s : State) : (hstat b s).regs = s.regs := rfl
@[simp] theorem hstat_mode (b : Byte) (s : State) : (hstat b s).mode = s.mode := rfl
@[simp] theorem hstat_status (b : Byte) (s : State) : (hstat b s).status = b := rfl
@[simp] theorem hstat_pc (b : Byte) (s : State) : (hstat b s).pc = s.pc := rfl
@[simp] theorem hstat_sp (b : Byte) (s : State) : (hstat b s).sp = s.sp := rfl
@[simp] theorem hstat_fp (b : Byte) (s : State) : (hstat b s).fp = s.fp := rfl
@[simp] theorem hstat_code (b : Byte) (s : State) : (hstat b s).code = s.code := rfl
@[simp] theorem hstat_codeLen (b : Byte) (s : State) : (hstat b s).codeLen = s.codeLen := rfl
@[simp] theorem hstat_lastFailure (b : Byte) (s : State) :
    (hstat b s).lastFailure = if s.flag .e && getFlag b .e then s.lastFailure else none := rfl
@[simp] theorem hstat_begun (b : Byte) (s : State) : (hstat b s).begun = s.inRun := rfl

@[simp] theorem loadCode_regs (bytes : List Byte) (s : State) : (loadCode bytes s).regs = s.regs := rfl
@[simp] theorem loadCode_mode (bytes : List Byte) (s : State) : (loadCode bytes s).mode = s.mode := rfl
@[simp] theorem loadCode_status (bytes : List Byte) (s : State) : (loadCode bytes s).status = s.status := rfl
@[simp] theorem loadCode_pc (bytes : List Byte) (s : State) : (loadCode bytes s).pc = s.pc := rfl
@[simp] theorem loadCode_sp (bytes : List Byte) (s : State) : (loadCode bytes s).sp = s.sp := rfl
@[simp] theorem loadCode_fp (bytes : List Byte) (s : State) : (loadCode bytes s).fp = s.fp := rfl
@[simp] theorem loadCode_code (bytes : List Byte) (s : State) : (loadCode bytes s).code = Memory.ofBytes 0 bytes := rfl
@[simp] theorem loadCode_codeLen (bytes : List Byte) (s : State) : (loadCode bytes s).codeLen = bytes.length := rfl
@[simp] theorem loadCode_lastFailure (bytes : List Byte) (s : State) : (loadCode bytes s).lastFailure = s.lastFailure := rfl
@[simp] theorem loadCode_begun (bytes : List Byte) (s : State) : (loadCode bytes s).begun = s.begun := rfl

@[simp] theorem assertReset_regs (s : State) : s.assertReset.regs = Vector.replicate 16 CodecValue.null := rfl
@[simp] theorem assertReset_mode (s : State) : s.assertReset.mode = .m128 := rfl
@[simp] theorem assertReset_status (s : State) : s.assertReset.status = 0 := rfl
@[simp] theorem assertReset_pc (s : State) : s.assertReset.pc = 0 := rfl
@[simp] theorem assertReset_sp (s : State) : s.assertReset.sp = 0 := rfl
@[simp] theorem assertReset_fp (s : State) : s.assertReset.fp = 0 := rfl
@[simp] theorem assertReset_code (s : State) : s.assertReset.code = s.code := rfl
@[simp] theorem assertReset_codeLen (s : State) : s.assertReset.codeLen = s.codeLen := rfl
@[simp] theorem assertReset_lastFailure (s : State) : s.assertReset.lastFailure = none := rfl
@[simp] theorem assertReset_begun (s : State) : s.assertReset.begun = false := rfl

/-! Reading registers and flags after an update. -/

@[simp] theorem reg_setReg_self (s : State) (i : Reg) (v : CodecValue) : (s.setReg i v).reg i = v := by
  simp [State.reg]

theorem reg_setReg_of_ne (s : State) {i j : Reg} (h : j ≠ i) (v : CodecValue) : (s.setReg i v).reg j = s.reg j := by
  have : i.val ≠ j.val := fun e => h (Fin.ext e.symm)
  simp [State.reg, this]

@[simp] theorem reg_writeResult_self (rd : Reg) (r : CodecResult) (s : State) : (writeResult rd r s).reg rd = r.1 := by
  simp [State.reg]

theorem reg_writeResult_of_ne {rd j : Reg} (h : j ≠ rd) (r : CodecResult) (s : State) :
    (writeResult rd r s).reg j = s.reg j := by
  have : rd.val ≠ j.val := fun e => h (Fin.ext e.symm)
  simp [State.reg, this]

@[simp] theorem reg_raise (f : Failure) (s : State) (i : Reg) : (raise f s).reg i = s.reg i := rfl

@[simp] theorem reg_hwrite_self (i : Reg) (b : Byte) (s : State) : (hwrite i b s).reg i = unpack b :=
  reg_setReg_self s i (unpack b)

theorem reg_hwrite_of_ne {i j : Reg} (h : j ≠ i) (b : Byte) (s : State) : (hwrite i b s).reg j = s.reg j :=
  reg_setReg_of_ne s h (unpack b)

@[simp] theorem reg_reset (i : Reg) : State.reset.reg i = CodecValue.null := by
  simp [State.reg, State.reset]

end Sys2Proof.Machine
end

