-- ==== Sys2Proof/Laws/Ops.lean ====
section
/-! SUPPORT. What each shared operation can do, said once; then what an instruction and a step can do. -/

namespace Sys2Proof

@[simp] theorem Mode.ofCode_code (m : Mode) : Mode.ofCode m.code = some m := by
  cases m <;> rfl

theorem Mode.ofCode_eq_some {k : Nat} {m : Mode} (h : Mode.ofCode k = some m) : m.code = k := by
  match k, h with
  | 0, rfl => rfl
  | 1, rfl => rfl
  | 2, rfl => rfl
  | 3, rfl => rfl
  | 4, rfl => rfl

theorem Mode.ofCode_eq_none_iff (k : Nat) : Mode.ofCode k = none ↔ 5 ≤ k := by
  match k with
  | 0 => simp [Mode.ofCode]
  | 1 => simp [Mode.ofCode]
  | 2 => simp [Mode.ofCode]
  | 3 => simp [Mode.ofCode]
  | 4 => simp [Mode.ofCode]
  | _ + 5 => simp [Mode.ofCode]

theorem Mode.ofCode_of_le {k : Nat} (h : k ≤ 4) : ∃ m, Mode.ofCode k = some m ∧ m.code = k := by
  match k, h with
  | 0, _ => exact ⟨.m8, rfl, rfl⟩
  | 1, _ => exact ⟨.m16, rfl, rfl⟩
  | 2, _ => exact ⟨.m32, rfl, rfl⟩
  | 3, _ => exact ⟨.m64, rfl, rfl⟩
  | 4, _ => exact ⟨.m128, rfl, rfl⟩

theorem Mode.code_le (m : Mode) : m.code ≤ 4 := by cases m <;> decide

theorem Mode.count_le (m : Mode) : m.count ≤ 16 := by cases m <;> decide

theorem Mode.count_pos (m : Mode) : 0 < m.count := by cases m <;> decide

theorem Mode.count_le_iff (m k : Mode) : m.count ≤ k.count ↔ m.code ≤ k.code := by
  cases m <;> cases k <;> decide

theorem Mode.count_dvd {m k : Mode} (h : m.count ≤ k.count) : m.count ∣ k.count :=
  Nat.pow_dvd_pow 2 ((Mode.count_le_iff m k).mp h)

end Sys2Proof

namespace Sys2Proof.Machine

@[simp] theorem regAt_val (s : State) (i : Reg) : s.regAt i.val = s.reg i := by
  simp [State.regAt, State.reg, Vector.getD]

/-- A failure changes E and the recorded failure, and nothing else (60_exceptions.md R262). -/
theorem failWith_failed (f : Failure) (s : State) : failWith f s = .next (raise f s) ∧ FailedWith f s (raise f s) := by
  refine ⟨rfl, ?_, ?_, fun _ => rfl, ?_, rfl, ⟨rfl, rfl, rfl, fun _ => rfl⟩, rfl⟩
  · simp [State.flag]
  · simp [State.runStatus, State.flag]
  · intro g hg; simp [State.flag, getFlag_putFlag_of_ne _ hg]

/-- Completing moves PC, forgets an earlier failure, begins the run, and keeps the rest (43_control.md R231). -/
theorem complete_effect (fmt : Format) (s : State) : ∃ t, complete fmt s = .next t ∧ t.regs = s.regs ∧
    t.mode = s.mode ∧ t.status = s.status ∧ t.pc = s.pc + BitVec.ofNat 32 fmt.size ∧ t.sp = s.sp ∧ t.fp = s.fp ∧
    t.code = s.code ∧ t.codeLen = s.codeLen ∧ t.lastFailure = none ∧ t.begun = true :=
  ⟨_, rfl, rfl, rfl, rfl, rfl, rfl, rfl, rfl, rfl, rfl, rfl⟩

/-- What completing after an ALU result leaves (41_alu.md R140). -/
theorem complete_writeResult (fmt : Format) (rd : Reg) (r : CodecResult) (s : State) :
    ∃ t, complete fmt (writeResult rd r s) = .next t ∧ AluCompleted rd r.1 r.2 fmt.size s t := by
  refine ⟨_, rfl, ?_, ?_, ?_, ?_, ?_, ?_, rfl, ⟨rfl, rfl, rfl, fun _ => rfl⟩, rfl, rfl⟩
  · exact reg_writeResult_self rd r s
  · exact fun j hj => reg_writeResult_of_ne hj r s
  · simp [State.flag, eq_null_iff]
  · simp [State.flag]
  · simp [State.flag]
  · intro f hz hn hv; simp [State.flag, getFlag_setFlags_other _ _ _ hz hn hv]

/-- A mode command fails on a code above 4 and completes on the others (42_mode.md R181). -/
theorem modeCommand_cases (m : Nat) (act : Mode → State → State) (s : State) :
    (5 ≤ m ∧ modeCommand m act s = failWith (.invalidMode m) s) ∨
    (∃ target : Mode, target.code = m ∧ modeCommand m act s = complete .b (act target s)) := by
  cases h : Mode.ofCode m with
  | none => exact .inl ⟨(Mode.ofCode_eq_none_iff m).mp h, by simp [modeCommand, modeOperand, h]⟩
  | some target => exact .inr ⟨target, Mode.ofCode_eq_some h, by simp [modeCommand, modeOperand, h]⟩

theorem modeCommand_invalid {m : Nat} (h : 5 ≤ m) (act : Mode → State → State) (s : State) :
    modeCommand m act s = failWith (.invalidMode m) s := by
  simp [modeCommand, modeOperand, (Mode.ofCode_eq_none_iff m).mpr h]

theorem modeCommand_valid (target : Mode) (act : Mode → State → State) (s : State) :
    modeCommand target.code act s = complete .b (act target s) := by
  simp [modeCommand, modeOperand]

/-- Promotion is a no-op, or it raises the mode and changes nothing else (42_mode.md R182). -/
theorem promote_cases (target : Mode) (s : State) :
    (target.count ≤ s.mode.count ∧ promote target s = s) ∨
    (s.mode.count < target.count ∧ promote target s = { s with mode := target }) := by
  by_cases h : target.count ≤ s.mode.count
  · exact .inl ⟨h, if_pos h⟩
  · exact .inr ⟨by omega, if_neg h⟩

/-- Demotion is a no-op when the target has no fewer active layers (42_mode.md R183). -/
theorem demote_noop {target : Mode} {s : State} (h : s.mode.count ≤ target.count) (fold : Fold) :
    demote target fold s = s := if_pos h

/-- What an effective demotion leaves (42_mode.md R183 to R185). -/
theorem demote_effect {target : Mode} {s : State} (h : target.count < s.mode.count) (fold : Fold) :
    (∀ i : Reg, i.val < target.count → (demote target fold s).reg i =
      fold (s.reg i) (groupTail s target.count (s.mode.count / target.count) i.val)) ∧
    (∀ i : Reg, target.count ≤ i.val → (demote target fold s).reg i = CodecValue.null) ∧
    (demote target fold s).mode = target ∧
    (demote target fold s).status = putFlag s.status .m true ∧
    (demote target fold s).pc = s.pc ∧ (demote target fold s).sp = s.sp ∧ (demote target fold s).fp = s.fp ∧
    (demote target fold s).code = s.code ∧ (demote target fold s).codeLen = s.codeLen := by
  unfold demote
  rw [if_neg (Nat.not_le.mpr h)]
  refine ⟨fun i hi => ?_, fun i hi => ?_, rfl, rfl, rfl, rfl, rfl, rfl, rfl⟩
  · simp [State.reg, hi]
  · simp [State.reg, Nat.not_lt.mpr hi]

/-- The folded group of a kept register is its own value and then the members that the model folds (42_mode.md R183). -/
theorem groupOf_eq {s : State} {target : Mode} (h : target.count < s.mode.count) {i : Reg} (hi : i.val < target.count) :
    groupOf s target.count i = s.reg i :: groupTail s target.count (s.mode.count / target.count) i.val := by
  have indices : ∀ c t : Mode, t.count < c.count → ∀ i : Fin 16, i.val < t.count →
      ((List.finRange 16).filter (fun j => decide (j.val < c.count) && decide (j.val % t.count = i.val % t.count))).map
        Fin.val = i.val :: (List.range (c.count / t.count - 1)).map fun k => i.val + (k + 1) * t.count := by
    intro c t
    cases c <;> cases t <;> decide
  have hmap := congrArg (List.map s.regAt) (indices s.mode target h i hi)
  have hreg : (s.regAt ∘ Fin.val : Fin 16 → CodecValue) = s.reg := funext fun j => regAt_val s j
  rw [List.map_map, hreg, List.map_cons, regAt_val, List.map_map] at hmap
  exact hmap

/-- A demotion keeps everything but registers, mode and status. -/
theorem demote_fixed (target : Mode) (fold : Fold) (s : State) :
    (demote target fold s).pc = s.pc ∧ (demote target fold s).sp = s.sp ∧ (demote target fold s).fp = s.fp ∧
    (demote target fold s).code = s.code ∧ (demote target fold s).codeLen = s.codeLen := by
  unfold demote; split <;> exact ⟨rfl, rfl, rfl, rfl, rfl⟩

/-- A promotion keeps everything but the mode. -/
theorem promote_fixed (target : Mode) (s : State) :
    (promote target s).pc = s.pc ∧ (promote target s).sp = s.sp ∧ (promote target s).fp = s.fp ∧
    (promote target s).code = s.code ∧ (promote target s).codeLen = s.codeLen := by
  unfold promote; split <;> exact ⟨rfl, rfl, rfl, rfl, rfl⟩

/-- A step's end that is no failure, in a run that has begun, with SP, FP and CODE as in `s`. -/
def EndsFrom (s : State) (r : Result) : Prop :=
  ∃ t, r = .next t ∧ t.lastFailure = none ∧ t.begun = true ∧ t.sp = s.sp ∧ t.fp = s.fp ∧ t.code = s.code ∧ t.codeLen = s.codeLen

/-- Completing keeps all but PC and the last result. -/
theorem complete_ends (fmt : Format) {s u : State} (hsp : u.sp = s.sp) (hfp : u.fp = s.fp) (hc : u.code = s.code)
    (hl : u.codeLen = s.codeLen) : EndsFrom s (complete fmt u) := ⟨_, rfl, rfl, rfl, hsp, hfp, hc, hl⟩

/-- A taken jump keeps all but PC and the last result. -/
theorem jumpTo_ends (a : Addr24) (s : State) : EndsFrom s (jumpTo a s) := ⟨_, rfl, rfl, rfl, rfl, rfl, rfl, rfl⟩

/-- The failures a command can raise: `RootByZero` and `InvalidMode` (60_exceptions.md R260). -/
def commandFailure (i : Instr) : Failure → Prop
  | .rootByZero => ∃ rd, i = .root rd 0
  | .invalidMode m => 5 ≤ m ∧ (i = .prom m ∨ i = .demt m ∨ i = .demx m ∨ i = .dema m ∨ i = .demm m)
  | .invalidOpcode _ => False
  | .instructionTruncated _ _ => False
  | .invalidState => False

/-- An instruction's end by a failure that its command can raise. -/
def FailsFrom (i : Instr) (s : State) (r : Result) : Prop := ∃ f, commandFailure i f ∧ r = .next (raise f s)

/-- What a mode command can do. -/
theorem modeCommand_ends {i : Instr} {m : Nat} {act : Mode → State → State} {s : State}
    (hf : i = .prom m ∨ i = .demt m ∨ i = .demx m ∨ i = .dema m ∨ i = .demm m)
    (hact : ∀ target, (act target s).sp = s.sp ∧ (act target s).fp = s.fp ∧ (act target s).code = s.code ∧
      (act target s).codeLen = s.codeLen) :
    FailsFrom i s (modeCommand m act s) ∨ EndsFrom s (modeCommand m act s) := by
  rcases modeCommand_cases m act s with ⟨h5, hm⟩ | ⟨target, -, hm⟩
  · exact .inl ⟨.invalidMode m, ⟨h5, hf⟩, hm⟩
  · obtain ⟨h1, h2, h3, h4⟩ := hact target
    exact .inr (hm ▸ complete_ends .b h1 h2 h3 h4)

/-- What one instruction can do: it fails as R262 says, or it completes, with SP, FP and CODE kept. -/
theorem exec_cases (i : Instr) (s : State) : FailsFrom i s (exec i s) ∨ EndsFrom s (exec i s) := by
  have hdem := fun (fold : Fold) (target : Mode) => (demote_fixed target fold s).2
  cases i with
  | prom m => exact modeCommand_ends (by simp) fun target => (promote_fixed target s).2
  | demt m => exact modeCommand_ends (by simp) (hdem _)
  | demx m => exact modeCommand_ends (by simp) (hdem _)
  | dema m => exact modeCommand_ends (by simp) (hdem _)
  | demm m => exact modeCommand_ends (by simp) (hdem _)
  | root rd n =>
    by_cases hn : n = 0
    · subst hn; exact .inl ⟨.rootByZero, ⟨rd, rfl⟩, rfl⟩
    · right
      simp only [exec, execRoot, root, if_neg hn]
      exact complete_ends .c rfl rfl rfl rfl
  | jz a =>
    right; simp only [exec, execJz]; split
    · exact jumpTo_ends a s
    · exact complete_ends .d rfl rfl rfl rfl
  | jnz a =>
    right; simp only [exec, execJnz]; split
    · exact jumpTo_ends a s
    · exact complete_ends .d rfl rfl rfl rfl
  | nop => exact .inr (complete_ends .a rfl rfl rfl rfl)
  | halt => exact .inr (complete_ends .a rfl rfl rfl rfl)
  | conj rd => exact .inr (complete_ends .b rfl rfl rfl rfl)
  | inv rd => exact .inr (complete_ends .b rfl rfl rfl rfl)
  | mov rd rs => exact .inr (complete_ends .c rfl rfl rfl rfl)
  | mul rd rs => exact .inr (complete_ends .c rfl rfl rfl rfl)
  | div rd rs => exact .inr (complete_ends .c rfl rfl rfl rfl)
  | xor rd rs => exact .inr (complete_ends .c rfl rfl rfl rfl)
  | mix rd rs => exact .inr (complete_ends .c rfl rfl rfl rfl)
  | ldi rd imm => exact .inr (complete_ends .c rfl rfl rfl rfl)
  | pow rd n => exact .inr (complete_ends .c rfl rfl rfl rfl)
  | clrf mask => exact .inr (complete_ends .c rfl rfl rfl rfl)
  | jmp a => exact .inr (jumpTo_ends a s)

/-- Every instruction answers a next state: none stops the model. -/
theorem exec_answers_next (i : Instr) (s : State) : ∃ t, exec i s = .next t := by
  rcases exec_cases i s with ⟨f, -, h⟩ | ⟨t, h, -⟩
  · exact ⟨_, h⟩
  · exact ⟨t, h⟩

/-- When the run is Running, the fetch decodes the bytes at PC (43_control.md R230). -/
theorem fetch_running {s : State} (h : s.runStatus = .running) :
    fetch s = match decode (bytesAtPc s) with
      | .error f => .undecodable f
      | .ok i => .ready i := by
  unfold fetch; rw [h]; rfl

/-- What one step can do (43_control.md R230). -/
theorem step_cases (s : State) :
    (s.runStatus = .halted ∧ step s = .fault .halted) ∨
    (∃ f, s.runStatus = .faulted f ∧ step s = .fault (.faulted f)) ∨
    (∃ f, s.runStatus = .running ∧ decode (bytesAtPc s) = .error f ∧ step s = .next (raise f s)) ∨
    (∃ i, s.runStatus = .running ∧ decode (bytesAtPc s) = .ok i ∧ step s = exec i s) := by
  cases h : s.runStatus with
  | halted => exact .inl ⟨rfl, by simp [step, fetch, h]⟩
  | faulted f => exact .inr (.inl ⟨f, rfl, by simp [step, fetch, h]⟩)
  | running =>
    right; right
    cases hd : decode (bytesAtPc s) with
    | error f => exact .inl ⟨f, rfl, rfl, by simp [step, fetch_running h, hd, failWith]⟩
    | ok i => exact .inr ⟨i, rfl, rfl, by simp [step, fetch_running h, hd]⟩

/-- A step that answers a next state records a failure of the step, or records none; the run has begun, and SP, FP and
CODE are kept. -/
theorem step_next_cases {s t : State} (h : step s = .next t) :
    ((∃ f, t = raise f s ∧ (decode (bytesAtPc s) = .error f ∨
        ∃ i, decode (bytesAtPc s) = .ok i ∧ commandFailure i f)) ∨
      (t.lastFailure = none ∧ ∃ i, decode (bytesAtPc s) = .ok i ∧ exec i s = .next t)) ∧
    t.begun = true ∧ t.sp = s.sp ∧ t.fp = s.fp ∧ t.code = s.code ∧ t.codeLen = s.codeLen := by
  rcases step_cases s with ⟨-, hs⟩ | ⟨f, -, hs⟩ | ⟨f, -, hd, hs⟩ | ⟨i, -, hd, hs⟩
  · rw [hs] at h; cases h
  · rw [hs] at h; cases h
  · rw [hs] at h; cases h; exact ⟨.inl ⟨f, rfl, .inl hd⟩, rfl, rfl, rfl, rfl, rfl⟩
  · rcases exec_cases i s with ⟨f, hc, he⟩ | ⟨u, he, hn, hb, h1, h2, h3, h4⟩
    · rw [hs, he] at h; cases h
      exact ⟨.inl ⟨f, rfl, .inr ⟨i, hd, hc⟩⟩, rfl, rfl, rfl, rfl, rfl⟩
    · rw [hs, he] at h; cases h
      exact ⟨.inr ⟨hn, i, hd, he⟩, hb, h1, h2, h3, h4⟩

/-- What `HLOAD` can do: it fails on a short record, then on an illegal mode byte, or it loads the record, keeps CODE, and
records no failure (44_host_port.md R246). -/
theorem hload_cases (bytes : List Byte) (s : State) :
    (bytes.length < 30 ∧ hload bytes s = .error .invalidState) ∨
    (30 ≤ bytes.length ∧ 5 ≤ (byteAt bytes 29).toNat ∧
      hload bytes s = .error (.invalidMode (byteAt bytes 29).toNat)) ∨
    (30 ≤ bytes.length ∧ ∃ t, hload bytes s = .ok t ∧ t.mode.code = (byteAt bytes 29).toNat ∧
      (∀ i : Reg, t.reg i = unpack (byteAt bytes i)) ∧ t.pc = leWordAt bytes 16 ∧ t.sp = leWordAt bytes 20 ∧
      t.fp = leWordAt bytes 24 ∧ t.status = byteAt bytes 28 ∧ t.code = s.code ∧ t.codeLen = s.codeLen ∧
      t.lastFailure = none ∧ t.begun = s.inRun) := by
  unfold hload Config.recordLen
  by_cases hl : bytes.length < 30
  · exact .inl ⟨hl, if_pos hl⟩
  · rw [if_neg hl]
    cases hm : Mode.ofCode (byteAt bytes 29).toNat with
    | none => exact .inr (.inl ⟨Nat.not_lt.mp hl, (Mode.ofCode_eq_none_iff _).mp hm, rfl⟩)
    | some m =>
      refine .inr (.inr ⟨Nat.not_lt.mp hl, _, rfl, Mode.ofCode_eq_some hm, fun i => ?_, rfl, rfl, rfl, rfl, rfl, rfl,
        rfl, rfl⟩)
      simp [State.reg]

/-- What a host operation can do to CODE: nothing, or, outside a run, it is the loading of a program that fits
(44_host_port.md R247, R248). -/
theorem hostStep_code (op : HostOp) (s : State) :
    ((hostStep op s).2.code = s.code ∧ (hostStep op s).2.codeLen = s.codeLen) ∨
    ∃ bytes, op = .loadCode bytes ∧ bytes.length ≤ Config.maxCodeLen ∧ s.inRun = false ∧
      hostStep op s = (.done, loadCode bytes s) := by
  cases op with
  | hload bytes =>
    left
    rcases hload_cases bytes s with ⟨-, h⟩ | ⟨-, -, h⟩ | ⟨-, t, h, -, -, -, -, -, -, hc, hl, -⟩
    · simp [hostStep, h]
    · simp [hostStep, h]
    · simp [hostStep, h, hc, hl]
  | loadCode bytes =>
    by_cases h : bytes.length ≤ Config.maxCodeLen ∧ s.inRun = false
    · exact .inr ⟨bytes, rfl, h.1, h.2, by simp [hostStep, h]⟩
    · left; simp [hostStep, if_neg h]
  | hread i => exact .inl ⟨rfl, rfl⟩
  | hwrite i b => exact .inl ⟨rfl, rfl⟩
  | hstatr => exact .inl ⟨rfl, rfl⟩
  | hstat b => exact .inl ⟨rfl, rfl⟩
  | hsave => exact .inl ⟨rfl, rfl⟩
  | reset => exact .inl ⟨rfl, rfl⟩

/-- A run is Faulted exactly when a failure is recorded and E is set (43_control.md R232). -/
theorem runStatus_faulted_iff (s : State) (f : Failure) :
    s.runStatus = .faulted f ↔ s.lastFailure = some f ∧ s.flag .e = true := by
  unfold State.runStatus
  cases s.lastFailure <;> cases s.flag .h <;> cases s.flag .e <;> simp

/-- The invariant, part by part. -/
theorem inv_iff (s : State) :
    s.inv = true ↔ Memory.wf s.code = true ∧ Memory.below s.codeLen s.code = true ∧ s.codeLen ≤ Config.maxCodeLen ∧
      ∀ f, s.lastFailure = some f → sequencerFailure f = true ∧ s.flag .e = true := by
  unfold State.inv
  cases s.lastFailure <;> simp [and_assoc]

/-- Reset's CODE is in canonical form. -/
theorem reset_code_wf : Memory.wf State.reset.code = true := rfl

/-- Placing a byte string at PC keeps the canonical form. -/
theorem placeAtPc_wf {s : State} (h : Memory.wf s.code = true) (bytes : List Byte) :
    Memory.wf (placeAtPc s bytes).code = true := Memory.writeBytes_wf h _ _

/-- A placed byte string is set to run. -/
theorem placeAtPc_running (s : State) (bytes : List Byte) : (placeAtPc s bytes).runStatus = .running := by
  simp [placeAtPc, State.runStatus, State.flag]

/-- Four placed bytes that fit the address space are what the next fetch finds. -/
theorem bytesAtPc_placeAtPc {s : State} {bytes : List Byte} (hwf : Memory.wf s.code = true) (hlen : bytes.length = 4)
    (hpc : s.pc.toNat + 4 ≤ 2 ^ 32) : bytesAtPc (placeAtPc s bytes) = bytes := by
  have hk : bytes.take (Config.maxCodeLen - s.pc.toNat) = bytes :=
    List.take_of_length_le (by unfold Config.maxCodeLen; omega)
  have hcode : (placeAtPc s bytes).code = Memory.writeBytes s.code s.pc.toNat bytes := by
    show Memory.writeBytes s.code s.pc.toNat _ = _; rw [hk]
  have hav : avail (placeAtPc s bytes) = 4 := by
    show (if s.pc.toNat < max s.codeLen (s.pc.toNat + (bytes.take (Config.maxCodeLen - s.pc.toNat)).length) then
      min 4 (max s.codeLen (s.pc.toNat + (bytes.take (Config.maxCodeLen - s.pc.toNat)).length) - s.pc.toNat) else 0) = 4
    rw [hk, hlen]; split <;> omega
  unfold bytesAtPc codeRead
  rw [hav, hcode]
  apply List.ext_getElem
  · simp [hlen]
  · intro k h1 h2
    simp only [List.getElem_map, List.getElem_range]
    show Memory.read _ (s.pc.toNat + k) = _
    rw [Memory.read_writeBytes hwf, if_pos ⟨by omega, by omega⟩, Nat.add_sub_cancel_left,
      List.getD_eq_getElem?_getD, List.getElem?_eq_getElem h2]
    rfl

/-- The next step runs the instruction that the decoder reads from a placed table word (log entry 6). -/
theorem step_withFetchWord {s : State} {nbits w : Nat} {i : Instr} (hwf : Memory.wf s.code = true)
    (hpc : s.pc.toNat + 4 ≤ 2 ^ 32) (hd : decodeTableWord nbits w = some i) :
    step (s.withFetchWord nbits w) = exec i (s.withFetchWord nbits w) := by
  have hdec : decode (tableBytes nbits w) = .ok i := by
    unfold decodeTableWord at hd
    cases h : decode (tableBytes nbits w) with
    | error e => rw [h] at hd; cases hd
    | ok j => rw [h] at hd; cases hd; rfl
  have hb : bytesAtPc (s.withFetchWord nbits w) = tableBytes nbits w := bytesAtPc_placeAtPc hwf rfl hpc
  unfold step
  have hrun : (s.withFetchWord nbits w).runStatus = .running := placeAtPc_running s _
  rw [fetch_running hrun, hb, hdec]

end Sys2Proof.Machine
end

