-- ==== Sys2Proof/Laws/PerInstr.lean ====
section
/-! SUPPORT. Statements for all instructions, one lemma per constructor. Family RoundTrip: decoding the encoding of a
well-formed instruction, whatever bytes follow it, gives the instruction back (30_encoding.md R81). -/

namespace Sys2Proof.Laws.RoundTrip

/-- The round trip of one instruction. -/
def Statement (i : Instr) : Prop := i.wf = true → ∀ rest, decode (encode i ++ rest) = .ok i

theorem nop : Statement .nop := fun _ _ => rfl

theorem halt : Statement .halt := fun _ _ => rfl

/-- A format B encoding decodes to its row's instruction, with the register or mode nibble back. -/
theorem decode_encodeB {op : Byte} {row : OpcodeRow} (h : opcodeRow op = some row) (hf : row.format = .b) (r : Nat)
    (rest : List Byte) :
    ∃ f : Fields, f.first.val = r % 16 ∧ decode (encodeB op r ++ rest) = .ok (row.build f) := by
  refine ⟨_, ?_, decode_complete h (rest := joinNibbles r 0 :: rest) (by simp [hf, Format.size])⟩
  simp only [fieldsOf, byteAt, List.getD_cons_succ, List.getD_cons_zero, hiNibble_joinNat]

/-- A format C encoding decodes to its row's instruction, with both nibbles and the immediate back. -/
theorem decode_encodeC {op : Byte} {row : OpcodeRow} (h : opcodeRow op = some row) (hf : row.format = .c) (ra rb : Nat)
    (imm : Byte) (rest : List Byte) :
    ∃ f : Fields, f.first.val = ra % 16 ∧ f.second.val = rb % 16 ∧ f.imm8 = imm ∧
      decode (encodeC op ra rb imm ++ rest) = .ok (row.build f) := by
  refine ⟨_, ?_, ?_, ?_, decode_complete h (rest := joinNibbles ra rb :: imm :: rest) (by simp [hf, Format.size])⟩
  · simp only [fieldsOf, byteAt, List.getD_cons_succ, List.getD_cons_zero, hiNibble_joinNat]
  · simp only [fieldsOf, byteAt, List.getD_cons_succ, List.getD_cons_zero, loNibble_joinNat]
  · simp only [fieldsOf, byteAt, List.getD_cons_succ, List.getD_cons_zero]

/-- A format D encoding decodes to its row's instruction, with the address back. -/
theorem decode_encodeD {op : Byte} {row : OpcodeRow} (h : opcodeRow op = some row) (hf : row.format = .d) (a : Addr24)
    (rest : List Byte) :
    ∃ f : Fields, f.a24 = a ∧ decode (encodeD op a ++ rest) = .ok (row.build f) := by
  refine ⟨_, ?_, decode_complete h (rest := addrByte a 0 :: addrByte a 1 :: addrByte a 2 :: rest)
    (by simp [hf, Format.size])⟩
  simp only [fieldsOf, byteAt, List.getD_cons_succ, List.getD_cons_zero, joinAddr_bytes]

theorem reg_eq {f : Fin 16} {r : Reg} (h : f.val = r.val % 16) : f = r := Fin.ext (by omega)

theorem conj (rd : Reg) : Statement (.conj rd) := fun _ rest => by
  obtain ⟨f, h, hd⟩ := decode_encodeB (op := 0x10) rfl rfl rd rest
  rw [← reg_eq h]; rwa [← reg_eq h] at hd

theorem inv (rd : Reg) : Statement (.inv rd) := fun _ rest => by
  obtain ⟨f, h, hd⟩ := decode_encodeB (op := 0x11) rfl rfl rd rest
  rw [← reg_eq h]; rwa [← reg_eq h] at hd

theorem mode_eq {f : Fin 16} {m : Nat} (hm : modeFieldFits m = true) (h : f.val = m % 16) : f.val = m := by
  simp only [modeFieldFits, decide_eq_true_eq] at hm; omega

theorem prom (m : Nat) : Statement (.prom m) := fun hm rest => by
  obtain ⟨f, h, hd⟩ := decode_encodeB (op := 0x18) rfl rfl m rest
  rw [← mode_eq hm h]; rwa [← mode_eq hm h] at hd

theorem demt (m : Nat) : Statement (.demt m) := fun hm rest => by
  obtain ⟨f, h, hd⟩ := decode_encodeB (op := 0x19) rfl rfl m rest
  rw [← mode_eq hm h]; rwa [← mode_eq hm h] at hd

theorem demx (m : Nat) : Statement (.demx m) := fun hm rest => by
  obtain ⟨f, h, hd⟩ := decode_encodeB (op := 0x1A) rfl rfl m rest
  rw [← mode_eq hm h]; rwa [← mode_eq hm h] at hd

theorem dema (m : Nat) : Statement (.dema m) := fun hm rest => by
  obtain ⟨f, h, hd⟩ := decode_encodeB (op := 0x1B) rfl rfl m rest
  rw [← mode_eq hm h]; rwa [← mode_eq hm h] at hd

theorem demm (m : Nat) : Statement (.demm m) := fun hm rest => by
  obtain ⟨f, h, hd⟩ := decode_encodeB (op := 0x1C) rfl rfl m rest
  rw [← mode_eq hm h]; rwa [← mode_eq hm h] at hd

theorem mov (rd rs : Reg) : Statement (.mov rd rs) := fun _ rest => by
  obtain ⟨f, h, h', -, hd⟩ := decode_encodeC (op := 0x20) rfl rfl rd rs 0 rest
  rw [← reg_eq h, ← reg_eq h']; rwa [← reg_eq h, ← reg_eq h'] at hd

theorem mul (rd rs : Reg) : Statement (.mul rd rs) := fun _ rest => by
  obtain ⟨f, h, h', -, hd⟩ := decode_encodeC (op := 0x21) rfl rfl rd rs 0 rest
  rw [← reg_eq h, ← reg_eq h']; rwa [← reg_eq h, ← reg_eq h'] at hd

theorem div (rd rs : Reg) : Statement (.div rd rs) := fun _ rest => by
  obtain ⟨f, h, h', -, hd⟩ := decode_encodeC (op := 0x22) rfl rfl rd rs 0 rest
  rw [← reg_eq h, ← reg_eq h']; rwa [← reg_eq h, ← reg_eq h'] at hd

theorem xor (rd rs : Reg) : Statement (.xor rd rs) := fun _ rest => by
  obtain ⟨f, h, h', -, hd⟩ := decode_encodeC (op := 0x23) rfl rfl rd rs 0 rest
  rw [← reg_eq h, ← reg_eq h']; rwa [← reg_eq h, ← reg_eq h'] at hd

theorem mix (rd rs : Reg) : Statement (.mix rd rs) := fun _ rest => by
  obtain ⟨f, h, h', -, hd⟩ := decode_encodeC (op := 0x24) rfl rfl rd rs 0 rest
  rw [← reg_eq h, ← reg_eq h']; rwa [← reg_eq h, ← reg_eq h'] at hd

theorem ldi (rd : Reg) (imm : Byte) : Statement (.ldi rd imm) := fun _ rest => by
  obtain ⟨f, h, -, hi, hd⟩ := decode_encodeC (op := 0x30) rfl rfl rd 0 imm rest
  rw [← reg_eq h, ← hi]; rwa [← reg_eq h, ← hi] at hd

theorem exponent_eq {b : Byte} {n : Nat} (hn : exponentFits n = true) (h : b = BitVec.ofNat 8 n) : b.toNat = n := by
  simp only [exponentFits, decide_eq_true_eq] at hn; rw [h, BitVec.toNat_ofNat]; omega

theorem pow (rd : Reg) (n : Nat) : Statement (.pow rd n) := fun hn rest => by
  obtain ⟨f, h, -, hi, hd⟩ := decode_encodeC (op := 0x31) rfl rfl rd 0 (BitVec.ofNat 8 n) rest
  rw [← reg_eq h, ← exponent_eq hn hi]; rwa [← reg_eq h, ← exponent_eq hn hi] at hd

theorem root (rd : Reg) (n : Nat) : Statement (.root rd n) := fun hn rest => by
  obtain ⟨f, h, -, hi, hd⟩ := decode_encodeC (op := 0x32) rfl rfl rd 0 (BitVec.ofNat 8 n) rest
  rw [← reg_eq h, ← exponent_eq hn hi]; rwa [← reg_eq h, ← exponent_eq hn hi] at hd

theorem clrf (mask : Byte) : Statement (.clrf mask) := fun _ rest => by
  obtain ⟨f, -, -, hi, hd⟩ := decode_encodeC (op := 0x38) rfl rfl 0 0 mask rest
  rw [← hi]; rwa [← hi] at hd

theorem jmp (target : Addr24) : Statement (.jmp target) := fun _ rest => by
  obtain ⟨f, h, hd⟩ := decode_encodeD (op := 0x40) rfl rfl target rest
  rw [← h]; rwa [← h] at hd

theorem jz (target : Addr24) : Statement (.jz target) := fun _ rest => by
  obtain ⟨f, h, hd⟩ := decode_encodeD (op := 0x41) rfl rfl target rest
  rw [← h]; rwa [← h] at hd

theorem jnz (target : Addr24) : Statement (.jnz target) := fun _ rest => by
  obtain ⟨f, h, hd⟩ := decode_encodeD (op := 0x42) rfl rfl target rest
  rw [← h]; rwa [← h] at hd

end Sys2Proof.Laws.RoundTrip
end

