-- ==== Sys2Proof/Tests/Slice0.lean ====
section
/-! SUPPORT. Small tests, each of one decoding, one instruction or one host operation. The expected values are those of
spec/95_test_vectors.md and of the examples in the rules named; then, for every obligation with hypotheses, a theorem
that shows values which meet them. -/

namespace Sys2Proof.Tests

open Sys2Proof Sys2Proof.Machine

/-! ## Helpers -/

/-- Reset, with some registers written. -/
def withRegs (rs : List (Reg × Byte)) : State := rs.foldl (fun s r => s.setReg r.1 (unpack r.2)) State.reset

/-- A look at the state after an instruction or a step. -/
def after {α : Type} (r : Result) (look : State → α) : Option α :=
  match r with
  | .next t => some (look t)
  | .fault _ => none
  | .refused _ => none

/-- The next state, or the state given where there is none. -/
def nextOr (r : Result) (s : State) : State :=
  match r with
  | .next t => t
  | .fault _ => s
  | .refused _ => s

/-- A register's byte, then Z, N and V. -/
def result (rd : Reg) (t : State) : Byte × Bool × Bool × Bool := (pack (t.reg rd), t.flag .z, t.flag .n, t.flag .v)

/-- The bytes of the first `k` registers, the mode and M. -/
def layers (k : Nat) (t : State) : List Byte × Mode × Bool := ((t.regs.toList.map pack).take k, t.mode, t.flag .m)

/-- Reset, with code loaded. -/
def loaded (bytes : List Byte) : State := loadCode bytes State.reset

/-! ## Well-formedness: one ill-formed term for each check -/

theorem test_wf_prom_refused : (Instr.prom 16).wf = false := by decide
theorem test_wf_prom_accepted : (Instr.prom 15).wf = true := by decide
theorem test_wf_demt_refused : (Instr.demt 16).wf = false := by decide
theorem test_wf_demx_refused : (Instr.demx 16).wf = false := by decide
theorem test_wf_dema_refused : (Instr.dema 17).wf = false := by decide
theorem test_wf_demm_refused : (Instr.demm 16).wf = false := by decide
theorem test_wf_pow_refused : (Instr.pow 0 256).wf = false := by decide
theorem test_wf_pow_accepted : (Instr.pow 0 255).wf = true := by decide
theorem test_wf_root_refused : (Instr.root 0 256).wf = false := by decide
theorem test_assemblable_mode_refused :
    (Instr.prom 5).assemblable = false ∧ (Instr.demt 5).assemblable = false ∧ (Instr.demx 5).assemblable = false ∧
    (Instr.dema 5).assemblable = false ∧ (Instr.demm 5).assemblable = false := by decide
theorem test_assemblable_exponent_refused :
    (Instr.pow 0 256).assemblable = false ∧ (Instr.root 0 256).assemblable = false := by decide

/-! ## Decoding: words written out bit by bit from 30_encoding.md R77 -/

theorem test_decode_format_a :
    decode [0b00000000] = .ok .nop ∧ decode [0b00000001] = .ok .halt := by decide

theorem test_decode_one_register :
    decode [0b00010000, 0b01010000] = .ok (.conj 5) ∧
    decode [0b00010001, 0b11110000] = .ok (.inv 15) := by decide

theorem test_decode_mode :
    decode [0b00011000, 0b01000000] = .ok (.prom 4) ∧
    decode [0b00011001, 0b00110000] = .ok (.demt 3) ∧
    decode [0b00011010, 0b00100000] = .ok (.demx 2) ∧
    decode [0b00011011, 0b00010000] = .ok (.dema 1) ∧
    decode [0b00011100, 0b11110000] = .ok (.demm 15) := by decide

theorem test_decode_two_registers :
    decode [0b00100000, 0b00010011, 0b00000000] = .ok (.mov 1 3) ∧
    decode [0b00100001, 0b10011010, 0b00000000] = .ok (.mul 9 10) ∧
    decode [0b00100010, 0b00000001, 0b00000000] = .ok (.div 0 1) ∧
    decode [0b00100011, 0b00000100, 0b00000000] = .ok (.xor 0 4) ∧
    decode [0b00100100, 0b11101111, 0b00000000] = .ok (.mix 14 15) := by decide

theorem test_decode_register_immediate :
    decode [0b00110000, 0b00010000, 0b11011000] = .ok (.ldi 1 0xD8) ∧
    decode [0b00110001, 0b00100000, 0b11111111] = .ok (.pow 2 255) ∧
    decode [0b00110010, 0b10000000, 0b00000010] = .ok (.root 8 2) ∧
    decode [0b00111000, 0b00000000, 0b10000000] = .ok (.clrf 0x80) := by decide

theorem test_decode_address :
    decode [0b01000000, 0b00000100, 0b00000000, 0b00000000] = .ok (.jmp 0x000004) ∧
    decode [0b01000001, 0b00000001, 0b00000010, 0b00000011] = .ok (.jz 0x030201) ∧
    decode [0b01000010, 0b11111111, 0b11111111, 0b01111111] = .ok (.jnz 0x7FFFFF) := by decide

/-- V-D1 to V-D8: the failures, and that the opcode is looked up before the length is checked. -/
theorem test_decode_failures :
    decode [] = .error (.instructionTruncated 1 0) ∧
    decode [0x02] = .error (.invalidOpcode 0x02) ∧
    decode [0xFF, 0x00, 0x00, 0x00] = .error (.invalidOpcode 0xFF) ∧
    decode [0x43] = .error (.invalidOpcode 0x43) ∧
    decode [0x10] = .error (.instructionTruncated 2 1) ∧
    decode [0x21, 0x01] = .error (.instructionTruncated 3 2) ∧
    decode [0x40, 0x05] = .error (.instructionTruncated 4 2) ∧
    decode [0x42, 0x06, 0x00] = .error (.instructionTruncated 4 3) := by decide

/-- V-D9, V-M16: reserved fields are ignored, and the encoder writes 0. -/
theorem test_decode_reserved :
    decode [0x21, 0x01, 0xFF] = .ok (.mul 0 1) ∧ decode [0x19, 0x07] = .ok (.demt 0) ∧
    decode [0x30, 0x1F, 0xD8] = .ok (.ldi 1 0xD8) ∧ decode [0x38, 0xFF, 0x05] = .ok (.clrf 0x05) := by decide

/-- W5: the encoder's check points. -/
theorem test_encode_points :
    encode (.mul 0 1) = [0x21, 0x01, 0x00] ∧ encode (.jnz 0x000006) = [0x42, 0x06, 0x00, 0x00] ∧
    encode (.demx 2) = [0x1A, 0x20] ∧ encode (.clrf 0x80) = [0x38, 0x00, 0x80] := by decide

/-- The table's bit numbering: the first byte is bits 7..0, and bits above the row's are 0. -/
theorem test_table_word :
    decodeTableWord 24 0xD81030 = some (.ldi 1 0xD8) ∧ decodeTableWord 8 0xFF01 = some .halt ∧
    decodeTableWord 32 0x00000642 = some (.jnz 6) ∧ decodeTableWord 8 0x02 = none := by decide

/-! ## The codec (V-C) -/

theorem test_pack_points :
    pack ⟨7, 15⟩ = 0x7F ∧ (unpack 0x9A).rho.toInt = -7 ∧ (unpack 0x9A).theta.toNat = 10 ∧
    (unpack 0xD8).rho.toInt = -3 ∧ (unpack 0xFF).rho.toInt = -1 := by decide

theorem test_construction :
    pack (cv 9 17) = 0x71 ∧ pack (cv (-20) (-1)) = 0x8F ∧ pack (cv 0 32) = 0x00 ∧
    [sat 9, sat (-8), sat 7, sat (-9)] = [true, false, false, true] := by decide

theorem test_rounding : rhazDiv 5 2 = 3 ∧ rhazDiv (-5) 2 = -3 ∧ rhazDiv (-1) 4 = 0 ∧ rhazDiv 15 4 = 4 := by decide

theorem test_phase : hdeg (unpack 0x15) = 225 ∧ hdeg (unpack 0x0F) = 675 := by decide

/-! ## The ALU commands (V-A) -/

theorem test_mov_null : after (exec (.mov 1 3) (withRegs [(3, 0x80)])) (result 1) = some (0x80, true, true, false) := by
  decide
theorem test_mov_clears_v :
    after (exec (.mov 1 3) { withRegs [(3, 0x36)] with status := 0x04 }) (result 1) = some (0x36, false, false, false) := by
  decide
theorem test_ldi : after (exec (.ldi 1 0xD8) State.reset) (result 1) = some (0xD8, false, true, false) := by decide
theorem test_ldi_last_register : after (exec (.ldi 15 0x00) State.reset) (result 15) = some (0x00, false, false, false) := by
  decide
theorem test_mul_saturates :
    after (exec (.mul 0 1) (withRegs [(0, 0xBC), (1, 0xC6)])) (result 0) = some (0x82, false, true, true) := by decide
theorem test_mul_squares : after (exec (.mul 2 2) (withRegs [(2, 0x39)])) (result 2) = some (0x62, false, false, false) := by
  decide
theorem test_div_by_null :
    after (exec (.div 0 1) (withRegs [(0, 0x70), (1, 0x80)])) (result 0) = some (0x70, false, false, true) := by decide
theorem test_div_phase_wraps :
    after (exec (.div 0 1) (withRegs [(0, 0x00), (1, 0x01)])) (result 0) = some (0x0F, false, false, false) := by decide
theorem test_xor : after (exec (.xor 0 4) (withRegs [(0, 0x50), (4, 0xD8)])) (result 0) = some (0x88, false, true, false) := by
  decide
theorem test_xor_nulls : after (exec (.xor 0 4) (withRegs [])) (result 0) = some (0x00, false, false, false) := by decide
theorem test_mix_halves :
    after (exec (.mix 0 1) (withRegs [(0, 0x80), (1, 0x7F)])) (result 0) = some (0xF8, false, true, false) := by decide
theorem test_mix_not_circular :
    after (exec (.mix 0 1) (withRegs [(0, 0x0F), (1, 0x01)])) (result 0) = some (0x08, false, false, false) := by decide
theorem test_pow_large : after (exec (.pow 0 255) (withRegs [(0, 0xFF)])) (result 0) = some (0x81, false, true, true) := by
  decide
theorem test_pow_zero : after (exec (.pow 0 0) (withRegs [(0, 0x80)])) (result 0) = some (0x00, false, false, false) := by
  decide
theorem test_root_toward_zero :
    after (exec (.root 0 2) (withRegs [(0, 0x99)])) (result 0) = some (0xD4, false, true, false) := by decide
theorem test_root_by_zero :
    after (exec (.root 0 0) { withRegs [(0, 0x53)] with status := 0x07, pc := 9 })
      (fun t => (pack (t.reg 0), t.status, t.pc, t.runStatus)) = some (0x53, 0x47, 9, .faulted .rootByZero) := by decide
theorem test_inv_null : after (exec (.inv 0) (withRegs [(0, 0x88)])) (result 0) = some (0x78, false, false, true) := by decide
theorem test_inv : after (exec (.inv 5) (withRegs [(5, 0x35)])) (result 5) = some (0xDB, false, true, false) := by decide
theorem test_conj : after (exec (.conj 5) (withRegs [(5, 0x35)])) (result 5) = some (0x3B, false, false, false) := by decide
theorem test_conj_null : after (exec (.conj 5) (withRegs [(5, 0x80)])) (result 5) = some (0x80, true, true, false) := by
  decide

/-! ## The mode commands (V-M) -/

/-- The start of V-M1 to V-M4. -/
def vm1 : State := { withRegs [(0, 0x12), (1, 0x39), (2, 0x34)] with mode := .m32 }

/-- The start of V-M5 to V-M7. -/
def vm5 : State := { withRegs [(0, 0x23), (1, 0x7F), (4, 0x23), (5, 0x10)] with mode := .m64 }

theorem test_demt : after (exec (.demt 0) vm1) (layers 4) = some ([0x12, 0x80, 0x80, 0x80], .m8, true) := by decide
theorem test_demt_noop : after (exec (.demt 3) vm1) (layers 4) = some ([0x12, 0x39, 0x34, 0x80], .m32, false) := by decide
theorem test_demx : after (exec (.demx 0) vm1) (layers 2) = some ([0x9F, 0x80], .m8, true) := by decide
theorem test_demx_groups : after (exec (.demx 1) vm5) (layers 3) = some ([0x00, 0x6F, 0x80], .m16, true) := by decide
theorem test_dema_groups : after (exec (.dema 1) vm5) (layers 3) = some ([0xD2, 0xE4, 0x80], .m16, true) := by decide
/-- V-M8: an inactive register is not folded, and becomes NULL. -/
theorem test_dema_active_only :
    after (exec (.dema 0) { withRegs [(0, 0x23), (1, 0x15), (2, 0x70)] with mode := .m16 }) (layers 3) =
      some ([0x24, 0x80, 0x80], .m8, true) := by decide
theorem test_demm_tie : after (exec (.demm 0) vm1) (layers 2) = some ([0x39, 0x80], .m8, true) := by decide
theorem test_demm_groups : after (exec (.demm 1) vm5) (layers 3) = some ([0x23, 0x7F, 0x80], .m16, true) := by decide
theorem test_prom :
    after (exec (.prom 4) { withRegs [(5, 0x23)] with mode := .m32 }) (fun t => (pack (t.reg 5), t.mode, t.flag .m)) =
      some (0x23, .m128, false) := by decide
theorem test_prom_invalid :
    after (exec (.prom 5) State.reset) (fun t => (t.status, t.pc, t.mode, t.runStatus)) =
      some (0x40, 0, .m128, .faulted (.invalidMode 5)) := by decide

/-! ## The control commands (V-K) -/

theorem test_nop : after (exec .nop { State.reset with pc := 5 }) (fun t => (t.pc, t.status)) = some (6, 0) := by decide
theorem test_nop_wraps : after (exec .nop { State.reset with pc := 0xFFFFFFFF }) (fun t => t.pc) = some 0 := by decide
theorem test_halt :
    after (exec .halt { State.reset with pc := 0x0D }) (fun t => (t.pc, t.status, t.runStatus)) =
      some (0x0E, 0x10, .halted) := by decide
theorem test_clrf : after (exec (.clrf 0x80) { State.reset with status := 0x81 }) (fun t => t.status) = some 0x01 := by decide
theorem test_clrf_some : after (exec (.clrf 0x05) { State.reset with status := 0x07 }) (fun t => t.status) = some 0x02 := by
  decide
theorem test_jmp : after (exec (.jmp 0xFFFFFF) { State.reset with pc := 0x10 }) (fun t => t.pc) = some 0x00FFFFFF := by decide
theorem test_jz_taken :
    after (exec (.jz 0) { State.reset with pc := 0x20, status := 0x01 }) (fun t => t.pc) = some 0 := by decide
theorem test_jz_falls : after (exec (.jz 0) { State.reset with pc := 0x20 }) (fun t => t.pc) = some 0x24 := by decide
theorem test_jnz_taken : after (exec (.jnz 6) { State.reset with pc := 0x09 }) (fun t => t.pc) = some 6 := by decide
theorem test_jnz_falls :
    after (exec (.jnz 6) { State.reset with pc := 0x09, status := 0x01 }) (fun t => t.pc) = some 0x0D := by decide

/-! ## The sequencer (S7, V-K13) -/

theorem test_step_off_the_end :
    after (step (loaded [])) (fun t => (t.status, t.pc, t.runStatus)) =
      some (0x40, 0, .faulted (.instructionTruncated 1 0)) := by decide
theorem test_step_truncated :
    after (step { loaded [0x30, 0x00, 0x23, 0x40, 0x05] with pc := 3 }) (fun t => (t.pc, t.runStatus)) =
      some (3, .faulted (.instructionTruncated 4 2)) := by decide
theorem test_step_runs_code :
    after (step { loaded [0x00, 0x30, 0x10, 0xD8] with pc := 1 }) (fun t => (t.pc, pack (t.reg 1))) = some (4, 0xD8) := by
  decide
theorem test_step_halted : step { loaded [0x00] with status := 0x10 } = .fault .halted := rfl
theorem test_fetch_word :
    after (step (State.reset.withFetchWord 24 0xD81030)) (fun t => (t.pc, pack (t.reg 1))) = some (3, 0xD8) := by decide

/-! ## The host port (V-H) -/

theorem test_hread :
    hread 4 { withRegs [(4, 0x15)] with mode := .m32 } =
      { byte := 0x15, rho := 1, theta := 5, hdeg := 225, active := false, activeMask := 0x000F } := by decide
theorem test_hread_reset :
    hread 0 State.reset =
      { byte := 0x80, rho := -8, theta := 0, hdeg := 0, active := true, activeMask := 0xFFFF } := by decide
theorem test_hsave_reset :
    hsave State.reset = List.replicate 16 0x80 ++ List.replicate 12 0x00 ++ [0x00, 0x04] := by decide
theorem test_hload_length : hload (List.replicate 29 0x05) State.reset = .error .invalidState := by decide
theorem test_hload_mode : hload (List.replicate 30 0x05) State.reset = .error (.invalidMode 5) := by decide
/-- V-H13: the loaded mode takes effect with no fold. -/
theorem test_hload_no_fold :
    (hload ((hsave (withRegs [(5, 0x23)])).set 29 2) State.reset).toOption.map (layers 6) =
      some ([0x80, 0x80, 0x80, 0x80, 0x80, 0x23], .m32, false) := by decide
theorem test_boot_mode :
    (boot .m32 [0x01] vm1).1 = .done ∧ (boot .m32 [0x01] vm1).2.mode = .m32 ∧ (boot .m32 [0x01] vm1).2.flag .m = false ∧
    (boot .m32 [0x01] vm1).2.pc = 0 ∧ (boot .m32 [0x01] vm1).2.codeLen = 1 := by decide
/-- R243, R232: a Faulted run stays Faulted while E stays 1, and runs again when E is cleared. -/
theorem test_hstat_after_failure :
    (hstat 0xC7 (raise .rootByZero State.reset)).runStatus = .faulted .rootByZero ∧
    (hstat 0x00 (raise .rootByZero State.reset)).runStatus = .running ∧
    (hstat 0x40 (hstat 0x00 (raise .rootByZero State.reset))).runStatus = .running := by decide
/-- R247: CODE is not changed between the steps of a run, and may be changed before it and after it. -/
theorem test_load_code_only_outside_a_run :
    after (step (loaded [0x00, 0x01])) (fun t => (hostStep (.loadCode []) t).1) = some .refused ∧
    after (exec .halt (loaded [0x01])) (fun t => (hostStep (.loadCode []) t).1) = some .done ∧
    (hostStep (.loadCode [0x00]) (loaded [0x01])).1 = .done := by decide

/-- R105 and R120: MAX is 0x70 and NULL 0x80 (log entry 14 names what R125 says of it). -/
theorem test_xor_max_null : pack (codecXor CodecValue.max CodecValue.null).1 = 0xF0 := by decide

/-! ## Text (R86, R83, R84) -/

theorem test_disassemble :
    disassemble (.mul 0 1) = ['M', 'U', 'L', ' ', 'R', '0', ',', ' ', 'R', '1'] ∧
    disassemble (.jnz 6) = ['J', 'N', 'Z', ' ', '0', 'x', '0', '0', '0', '0', '0', '6'] ∧
    disassemble (.demx 2) = ['D', 'E', 'M', 'X', ' ', 'M', '3', '2'] ∧
    disassemble (.prom 7) = ['P', 'R', 'O', 'M', ' ', '?', '7'] := by decide
theorem test_read_register_case :
    readInstr [] ['C', 'O', 'N', 'J', ' ', 'r', 'a'] = .ok (.conj 10) := by decide
theorem test_read_immediate_range :
    readInstr [] ['C', 'L', 'R', 'F', ' ', '2', '5', '6'] = .error .wrongOperand := by decide
theorem test_mode_directive_warns :
    readDirective ['.', 'm', 'o', 'd', 'e', ' ', 'M', '7'] = (some (.mode .m128), [.unrecognizedMode]) := by decide

/-! ## Witnesses: values that meet the hypotheses of each obligation that has some -/

/-- Code whose first step writes R1, and a state that runs it. -/
def runsLdi : State := loaded [0x30, 0x10, 0x80]

/-- A state whose next step fails with `ROOT` by zero. -/
def runsRootByZero : State := loaded [0x32, 0x20, 0x00]

/-- A state whose next step demotes from M128 to M8. -/
def runsDemotion : State := loaded [0x19, 0x00]

/-- A program of two bytes, and one byte more than the 32-bit address space holds. -/
theorem test_meets_BootStartsInItsMode :
    ([0x00, 0x01] : List Byte).length ≤ 2 ^ 32 ∧ 2 ^ 32 < (List.replicate (2 ^ 32 + 1) (0 : Byte)).length :=
  ⟨by decide, by rw [List.length_replicate]; exact Nat.lt_succ_self _⟩

theorem test_meets_DecodeEncodeAgree :
    (Instr.jnz 0xFFFFFF).wf = true ∧ (Instr.demm 15).wf = true ∧ (Instr.pow 15 255).wf = true ∧
    decode [0x10, 0x5F, 0x00] = .ok (.conj 5) := by decide

/-- Strings that differ in every reserved bit of a `CLRF`, of a `CONJ` and of a `MUL`. -/
theorem test_meets_ReservedFieldsAreIgnored :
    AgreeOnFields 0x38 [0xFF, 0x80] [0x00, 0x80] ∧ AgreeOnFields 0x10 [0x5F] [0x50] ∧
    AgreeOnFields 0x21 [0x01, 0xFF] [0x01, 0x00] ∧ 1 ≤ 1 := by
  refine ⟨⟨rfl, fun k => ?_⟩, ⟨rfl, fun k => ?_⟩, ⟨rfl, fun k => ?_⟩, Nat.le_refl 1⟩
  all_goals
    match k with
    | 0 => decide
    | 1 => decide
    | 2 => decide
    | k + 3 => rfl

/-- Each size, the longest byte string that is too short, the shortest that is not, and an unassigned opcode. -/
theorem test_meets_DecodeFailsOnlyByName :
    ((0x10 : Byte) ∈ ([0x10, 0x11, 0x18, 0x19, 0x1A, 0x1B, 0x1C] : List Byte) ∧ ([] : List Byte).length + 1 < 2 ∧
      2 ≤ ([0x50] : List Byte).length + 1) ∧
    ((0x01 : Byte) ∈ ([0x00, 0x01] : List Byte) ∧ 1 ≤ ([] : List Byte).length + 1) ∧
    ((0x38 : Byte) ∈ ([0x20, 0x21, 0x22, 0x23, 0x24, 0x30, 0x31, 0x32, 0x38] : List Byte) ∧
      ([0x00] : List Byte).length + 1 < 3 ∧ 3 ≤ ([0x00, 0x80] : List Byte).length + 1) ∧
    ((0x42 : Byte) ∈ ([0x40, 0x41, 0x42] : List Byte) ∧ ([0, 0] : List Byte).length + 1 < 4 ∧
      4 ≤ ([0, 0, 0] : List Byte).length + 1) ∧
    (0x02 : Byte) ∉ ([0x00, 0x01, 0x10, 0x11, 0x18, 0x19, 0x1A, 0x1B, 0x1C, 0x20, 0x21, 0x22, 0x23, 0x24, 0x30, 0x31, 0x32,
      0x38, 0x40, 0x41, 0x42] : List Byte) := by decide

theorem test_meets_XorCombinesRawFields : (0 : Reg) ≠ 15 := by decide

theorem test_meets_RootDividesLogFields : (1 : Nat) ≠ 0 ∧ (255 : Nat) ≠ 0 := by decide

theorem test_meets_AluIsNotModeSensitive :
    isAlu (.mul 9 10) = true ∧ exec (.mul 9 10) State.reset = .next (nextOr (exec (.mul 9 10) State.reset) State.reset) :=
  ⟨rfl, rfl⟩

/-- The two ends of the codes that are refused: `PromRaisesMode`, the demotions and `InvalidModeCodesFail`. -/
theorem test_meets_RejectsModeCodes : (5 ≤ 5 ∧ 5 ≤ 15) ∧ (5 ≤ 15 ∧ 15 ≤ 15) := by decide

/-- Effective demotions, to the next mode and to the smallest: the four demotions and `ModeChangesAreMonotone`. -/
theorem test_meets_demotions :
    Mode.m64.count < State.reset.mode.count ∧ Mode.m8.count < State.reset.mode.count ∧ Mode.m8.count < vm5.mode.count := by
  decide

/-- Demotions that do nothing, to the current mode and to a larger one. -/
theorem test_meets_KeepsAllUpwards :
    State.reset.mode.count ≤ Mode.m128.count ∧ vm1.mode.count ≤ Mode.m32.count ∧ vm1.mode.count ≤ Mode.m64.count := by decide

theorem test_meets_OnlyModeCommandsWriteMode :
    step runsDemotion = .next (nextOr (step runsDemotion) runsDemotion) ∧
    (nextOr (step runsDemotion) runsDemotion).mode ≠ runsDemotion.mode ∧
    (hostStep .reset vm1).2.mode ≠ vm1.mode := ⟨rfl, by decide, by decide⟩

theorem test_meets_HaltStopsTheRun : State.flag { State.reset with status := 0x10 } .h = true := by decide

/-- A target at CODE_LEN: the three jumps. -/
theorem test_meets_jumps_past_the_end :
    (loaded [0x40, 0x04, 0x00, 0x00]).codeLen ≤ (4 : Addr24).toNat ∧
    (loaded [0x40, 0x04, 0x00, 0x00]).flag .h = false ∧ (loaded [0x40, 0x04, 0x00, 0x00]).flag .z = false ∧
    State.flag { loaded [0x41, 0x04, 0x00, 0x00] with status := 0x01 } .z = true ∧
    State.flag { loaded [0x41, 0x04, 0x00, 0x00] with status := 0x01 } .h = false := by decide

theorem test_meets_StepRunsDecodedInstruction :
    runsLdi.runStatus = .running ∧ decode (bytesAtPc runsLdi) = .ok (.ldi 1 0x80) := by decide

theorem test_meets_FetchReadsCodeAtPc :
    ([] : List Byte).length ≤ 2 ^ 32 ∧ ([0x00, 0x01] : List Byte).length ≤ 2 ^ 32 ∧ State.reset.inRun = false := by decide

/-- `FailuresChangeOnlyE`, `PcAdvancesBySize` and `ClearedFailureFailsAgain`: a step that fails. -/
theorem test_meets_failing_step :
    step runsRootByZero = .next (nextOr (step runsRootByZero) runsRootByZero) ∧
    (nextOr (step runsRootByZero) runsRootByZero).lastFailure = some .rootByZero := ⟨rfl, by decide⟩

/-- `PcAdvancesBySize`, `OnlyTheHostLoadsCode`, `SpAndFpAreUnused`, `UnreadFlagsSteerNothing`: a step that completes, and
leaves the run Running. -/
theorem test_meets_completing_step :
    step runsLdi = .next (nextOr (step runsLdi) runsLdi) ∧ (nextOr (step runsLdi) runsLdi).lastFailure = none ∧
    (nextOr (step runsLdi) runsLdi).runStatus = .running ∧
    decode (bytesAtPc runsLdi) = .ok (.ldi 1 0x80) ∧ Flag.m ∈ [Flag.n, .v, .c, .i, .m] :=
  ⟨rfl, by decide, by decide, by decide, by decide⟩

theorem test_meets_StepFailsExactlyAsListed : runsRootByZero.runStatus = .running ∧ runsLdi.runStatus = .running := by decide

theorem test_meets_StoppedRunsTakeNoStep :
    State.runStatus { State.reset with status := 0x10 } = .halted ∧
    (raise .rootByZero State.reset).runStatus = .faulted .rootByZero := by decide

theorem test_meets_host_writes :
    (hostStep (.loadCode [0x01]) State.reset).2.code ≠ State.reset.code ∧
    (hostStep .reset { State.reset with sp := 1, fp := 1 }).2.sp ≠ 1 ∧ HostOp.hstatr ≠ HostOp.hsave := by decide

/-- `FlagsChangeOnlyAsTabled`: a step that sets Z, one that sets E, one that sets M, and one that clears M. -/
theorem test_meets_FlagsChangeOnlyAsTabled :
    step runsLdi = .next (nextOr (step runsLdi) runsLdi) ∧ runsLdi.flag .z = false ∧
    (nextOr (step runsLdi) runsLdi).flag .z = true ∧
    runsRootByZero.flag .e = false ∧ (nextOr (step runsRootByZero) runsRootByZero).flag .e = true ∧
    runsDemotion.flag .m = false ∧ (nextOr (step runsDemotion) runsDemotion).flag .m = true ∧
    State.flag { loaded [0x38, 0x00, 0x80] with status := 0x80 } .m = true ∧
    (nextOr (step { loaded [0x38, 0x00, 0x80] with status := 0x80 }) runsLdi).flag .m = false :=
  ⟨rfl, by decide, by decide, by decide, by decide, by decide, by decide, by decide, by decide⟩

theorem test_meets_StepsKeepInvariant :
    runsDemotion.inv = true ∧ step runsDemotion = .next (nextOr (step runsDemotion) runsDemotion) := ⟨by decide, rfl⟩

/-- Invariant states before the first step, in a run, and after a failure. -/
theorem test_meets_HostStepsKeepInvariant :
    runsLdi.inv = true ∧ (nextOr (step runsLdi) runsLdi).inv = true ∧
    (nextOr (step runsRootByZero) runsRootByZero).inv = true := by decide

/-- A state that the host and a step reach from reset, other than reset. -/
theorem test_meets_ReachableStatesMeetInvariant :
    Reaches State.reset (nextOr (step (hostStep (.loadCode [0x01]) State.reset).2) State.reset) :=
  .step (.host (.loadCode [0x01]) (.refl _)) rfl

/-- Values at both ends of rho's range, and at the end of theta's. -/
theorem test_meets_RootOfPowerRestores :
    (2 : Nat) ≠ 0 ∧ (-8 : Int) ≤ (unpack 0xC7).rho.toInt * 2 ∧ (unpack 0xC7).rho.toInt * 2 ≤ 7 ∧
    (unpack 0xC7).theta.toNat * 2 ≤ 15 ∧ (-8 : Int) ≤ (unpack 0x7F).rho.toInt * 1 ∧ (unpack 0x7F).rho.toInt * 1 ≤ 7 ∧
    (unpack 0x7F).theta.toNat * 1 ≤ 15 := by decide

theorem test_meets_RoundingIsHalfAwayFromZero : 0 < 1 ∧ 0 < 16 := by decide

theorem test_meets_HwriteWritesOneRegister : (15 : Reg) ≠ 0 := by decide

theorem test_meets_StatusAccessRestartsRuns :
    getFlag 0x81 .h = false ∧ getFlag 0x81 .e = false ∧
    State.runStatus { State.reset with status := 0x50 } = .halted := by decide

theorem test_meets_RecordLayoutAndRestore : 0 < 4 ∧ 3 < 4 := by decide

/-- The clauses' meeting points: 29 and 30 bytes, mode bytes 4 and 5. -/
theorem test_meets_HloadLoadsOrChangesNothing :
    (List.replicate 29 (0x04 : Byte)).length < 30 ∧
    30 ≤ (List.replicate 30 (0x05 : Byte)).length ∧ 4 < (byteAt (List.replicate 30 0x05) 29).toNat ∧
    30 ≤ (List.replicate 30 (0x04 : Byte)).length ∧ (byteAt (List.replicate 30 0x04) 29).toNat ≤ 4 := by decide

theorem test_meets_DisassemblyReadsBack :
    (Instr.prom 4).assemblable = true ∧ (Instr.root 15 255).assemblable = true ∧
    (Instr.jmp 0xFFFFFF).assemblable = true := by decide

/-- Two instances: the first takes a step, the second has stopped. -/
theorem test_meets_InstancesShareNothing :
    [runsLdi, { State.reset with status := 0x10 }][0]? = some runsLdi ∧
    step runsLdi = .next (nextOr (step runsLdi) runsLdi) ∧
    (∀ t, step { State.reset with status := 0x10 } ≠ .next t) ∧ (0 : Nat) ≠ 1 := by
  refine ⟨rfl, rfl, fun t => ?_, by decide⟩
  rw [show step { State.reset with status := 0x10 } = .fault .halted from rfl]
  exact fun h => nomatch h

end Sys2Proof.Tests
end

/-! Proofs of the statements about the state (10_state.md): SP and FP are unused (R37), and the values at reset (R40). -/
section
namespace Sys2Proof.Machine

/-! ## SP and FP steer nothing (R37)

Writing SP and FP commutes with every meaning, and so with the step: no command reads them. -/

/-- The machine with SP and FP written. -/
def State.withPointers (s : State) (a b : Word) : State := { s with sp := a, fp := b }

/-- An outcome with SP and FP written in the next state, if there is one. -/
def Result.withPointers (r : Result) (a b : Word) : Result :=
  match r with
  | .next t => .next (t.withPointers a b)
  | .fault why => .fault why
  | .refused why => .refused why

@[simp] theorem result_next_withPointers (t : State) (a b : Word) :
    Result.withPointers (.next t) a b = .next (t.withPointers a b) := rfl

@[simp] theorem reg_withPointers (s : State) (i : Reg) (a b : Word) : (s.withPointers a b).reg i = s.reg i := rfl

@[simp] theorem flag_withPointers (s : State) (f : Flag) (a b : Word) : (s.withPointers a b).flag f = s.flag f := rfl

@[simp] theorem inRun_withPointers (s : State) (a b : Word) : (s.withPointers a b).inRun = s.inRun := rfl

@[simp] theorem fetch_withPointers (s : State) (a b : Word) : fetch (s.withPointers a b) = fetch s := rfl

@[simp] theorem withPointers_withPointers (s : State) (a b c d : Word) :
    (s.withPointers a b).withPointers c d = s.withPointers c d := rfl

@[simp] theorem loadCode_withPointers (bytes : List Byte) (s : State) (a b : Word) :
    loadCode bytes (s.withPointers a b) = (loadCode bytes s).withPointers a b := rfl

@[simp] theorem failWith_withPointers (f : Failure) (s : State) (a b : Word) :
    failWith f (s.withPointers a b) = (failWith f s).withPointers a b := rfl

@[simp] theorem complete_withPointers (fmt : Format) (s : State) (a b : Word) :
    complete fmt (s.withPointers a b) = (complete fmt s).withPointers a b := rfl

@[simp] theorem jumpTo_withPointers (target : Addr24) (s : State) (a b : Word) :
    jumpTo target (s.withPointers a b) = (jumpTo target s).withPointers a b := rfl

theorem promote_withPointers (target : Mode) (s : State) (a b : Word) :
    promote target (s.withPointers a b) = (promote target s).withPointers a b := by
  rw [promote, promote, apply_ite (State.withPointers · a b)]
  rfl

theorem demote_withPointers (target : Mode) (fold : Fold) (s : State) (a b : Word) :
    demote target fold (s.withPointers a b) = (demote target fold s).withPointers a b := by
  rw [demote, demote, apply_ite (State.withPointers · a b)]
  rfl

/-- A mode command commutes with writing SP and FP when what it does to the mode commutes. -/
theorem modeCommand_withPointers {act : Mode → State → State} {s : State} {a b : Word}
    (hact : ∀ target, act target (s.withPointers a b) = (act target s).withPointers a b) (m : Nat) :
    modeCommand m act (s.withPointers a b) = (modeCommand m act s).withPointers a b := by
  unfold modeCommand
  cases modeOperand m with
  | error f => exact failWith_withPointers f s a b
  | ok target => simp [hact]

theorem exec_withPointers (i : Instr) (s : State) (a b : Word) :
    exec i (s.withPointers a b) = Result.withPointers (exec i s) a b := by
  have hdem (fold : Fold) (target : Mode) := demote_withPointers target fold s a b
  cases i with
  | prom m => exact modeCommand_withPointers (promote_withPointers · s a b) m
  | demt m => exact modeCommand_withPointers (hdem foldTruncate) m
  | demx m => exact modeCommand_withPointers (hdem foldXor) m
  | dema m => exact modeCommand_withPointers (hdem foldAverage) m
  | demm m => exact modeCommand_withPointers (hdem foldMax) m
  | root rd n =>
    simp only [exec, execRoot, reg_withPointers]
    cases root (s.reg rd) n <;> rfl
  | jz target => cases hz : s.flag .z <;> simp [exec, execJz, hz]
  | jnz target => cases hz : s.flag .z <;> simp [exec, execJnz, hz]
  | _ => rfl

theorem step_withPointers (s : State) (a b : Word) : step (s.withPointers a b) = Result.withPointers (step s) a b := by
  unfold step
  rw [fetch_withPointers]
  cases fetch s with
  | stopped why => rfl
  | undecodable f => exact failWith_withPointers f s a b
  | ready i => exact exec_withPointers i s a b

/-! The host's operations. -/

/-- `HLOAD` reads neither: it writes both from the record, or fails (44_host_port.md R246). -/
@[simp] theorem hload_withPointers (bytes : List Byte) (s : State) (a b : Word) :
    hload bytes (s.withPointers a b) = hload bytes s := rfl

/-- Every host operation but `HLOAD` and reset keeps SP and FP. -/
theorem hostStep_keeps_pointers {op : HostOp} (hreset : op ≠ .reset) (hload : ∀ bytes, op ≠ .hload bytes) (s : State) :
    (hostStep op s).2.sp = s.sp ∧ (hostStep op s).2.fp = s.fp := by
  cases op with
  | reset => exact absurd rfl hreset
  | hload bytes => exact absurd rfl (hload bytes)
  | loadCode bytes => simp only [hostStep]; split <;> exact ⟨rfl, rfl⟩
  | _ => exact ⟨rfl, rfl⟩

/-- What SP and FP held before a host operation shows in the answer of `HSAVE` alone, and in nothing that the operation
leaves but SP and FP. -/
theorem hostStep_withPointers (op : HostOp) (s : State) (a b : Word) :
    (op ≠ .hsave → (hostStep op (s.withPointers a b)).1 = (hostStep op s).1) ∧
    ∀ c d, (hostStep op (s.withPointers a b)).2.withPointers c d = (hostStep op s).2.withPointers c d := by
  cases op with
  | hsave => exact ⟨fun h => absurd rfl h, fun _ _ => rfl⟩
  | hload bytes =>
    simp only [hostStep, hload_withPointers]
    cases hload bytes s <;> exact ⟨fun _ => rfl, fun _ _ => rfl⟩
  | loadCode bytes =>
    by_cases h : bytes.length ≤ Config.maxCodeLen ∧ s.inRun = false <;> simp [hostStep, h]
  | _ => exact ⟨fun _ => rfl, fun _ _ => rfl⟩

/-- Settles O39: writing SP and FP commutes with the step and, up to SP and FP, with every host operation. -/
theorem spAndFpAreUnused : Obligations.SpAndFpAreUnused := by
  refine ⟨fun s t a b h => ?_, fun op s h => ?_, fun op s a b => ?_⟩
  · obtain ⟨-, -, hsp, hfp, -⟩ := step_next_cases h
    have hstep : step (s.withPointers a b) = .next (t.withPointers a b) := by
      rw [step_withPointers, h, result_next_withPointers]
    exact ⟨hsp, hfp, hstep⟩
  · by_contra hop
    obtain ⟨hreset, hload⟩ := not_or.mp hop
    obtain ⟨hsp, hfp⟩ := hostStep_keeps_pointers hreset (not_exists.mp hload) s
    exact h.elim (· hsp) (· hfp)
  · obtain ⟨hreply, hstate⟩ := hostStep_withPointers op s a b
    exact ⟨hreply, hstate 0 0⟩

/-! ## Reset (R40, R290) -/

@[simp] theorem reg_assertReset (s : State) (i : Reg) : s.assertReset.reg i = CodecValue.null := reg_reset i

/-- Nothing stops the run after reset: H is clear and no failure is recorded (70_reset_and_hazards.md R291). -/
@[simp] theorem runStatus_assertReset (s : State) : s.assertReset.runStatus = .running := by
  simp [State.runStatus, State.flag, getFlag]

/-- The state at power-on is the one that an asserted reset leaves when no CODE is loaded. -/
theorem reset_assertReset : State.reset.assertReset = State.reset := rfl

/-- Settles O1: power-on is a reset of the empty machine, so both parts are what an asserted reset leaves. -/
theorem resetLeavesSpecValues : Obligations.ResetLeavesSpecValues := by
  have hregs (s : State) (i : Reg) : pack (s.assertReset.reg i) = 0x80 := by rw [reg_assertReset, pack_null]
  refine ⟨?_, fun s => ⟨s.assertReset, rfl, hregs s, ?_⟩⟩
  · rw [← reset_assertReset]
    exact ⟨hregs _, by simp⟩
  · simp

end Sys2Proof.Machine
end

/-! Proofs of the statements about the encoding (30_encoding.md): reserved fields (R82). -/
section
namespace Sys2Proof.Machine

/-! ## The encoder writes reserved fields as 0 (R82)

One lemma per format; what it asks of an opcode's masks is a closed fact for each of its rows. -/

/-- Every reserved bit after the first byte of `bytes` is 0, for the opcode `op`. -/
def ReservedBitsZero (op : Byte) (bytes : List Byte) : Prop :=
  ∀ k, 1 ≤ k → byteAt bytes k &&& ~~~fieldMask op k = 0

/-- A byte without reserved bits holds no reserved bit. -/
theorem and_not_eq_zero_of_full {m : Byte} (h : m = 0xFF) (b : Byte) : b &&& ~~~m = 0 := by
  subst h
  exact BitVec.and_zero

/-- With the second nibble 0, the bits outside `0xF0` are 0. -/
theorem joinNibbles_zero_and_not {m : Byte} (h : m = 0xF0) (r : Nat) : joinNibbles r 0 &&& ~~~m = 0 := by
  have hlow : ∀ n : Fin 16, BitVec.ofNat 8 (16 * n.val) &&& ~~~(0xF0 : Byte) = 0 := by decide
  subst h
  exact hlow ⟨r % 16, Nat.mod_lt r (by decide)⟩

/-- Format A has no byte after the opcode. -/
theorem reservedBitsZero_opcode (op : Byte) : ReservedBitsZero op [op]
  | _ + 1, _ => BitVec.zero_and

theorem reservedBitsZero_encodeB {op : Byte} (h : fieldMask op 1 = 0xF0) (r : Nat) :
    ReservedBitsZero op (encodeB op r)
  | 1, _ => joinNibbles_zero_and_not h r
  | _ + 2, _ => BitVec.zero_and

theorem reservedBitsZero_encodeC {op : Byte} {ra rb : Nat} {imm : Byte}
    (h1 : joinNibbles ra rb &&& ~~~fieldMask op 1 = 0) (h2 : imm &&& ~~~fieldMask op 2 = 0) :
    ReservedBitsZero op (encodeC op ra rb imm)
  | 1, _ => h1
  | 2, _ => h2
  | _ + 3, _ => BitVec.zero_and

theorem reservedBitsZero_encodeD {op : Byte} (h1 : fieldMask op 1 = 0xFF) (h2 : fieldMask op 2 = 0xFF)
    (h3 : fieldMask op 3 = 0xFF) (a : Addr24) : ReservedBitsZero op (encodeD op a)
  | 1, _ => and_not_eq_zero_of_full h1 _
  | 2, _ => and_not_eq_zero_of_full h2 _
  | 3, _ => and_not_eq_zero_of_full h3 _
  | _ + 4, _ => BitVec.zero_and

/-- The encoder writes 0 in every reserved bit of the opcode it writes. -/
theorem encode_reservedBitsZero (i : Instr) : ∃ op rest, encode i = op :: rest ∧ ReservedBitsZero op (encode i) := by
  cases i with
  | nop | halt => exact ⟨_, _, rfl, reservedBitsZero_opcode _⟩
  | conj r | inv r | prom r | demt r | demx r | dema r | demm r =>
    exact ⟨_, _, rfl, reservedBitsZero_encodeB rfl r⟩
  | mov rd rs | mul rd rs | div rd rs | xor rd rs | mix rd rs =>
    exact ⟨_, _, rfl, reservedBitsZero_encodeC (and_not_eq_zero_of_full rfl _) BitVec.zero_and⟩
  | ldi rd _ | pow rd _ | root rd _ =>
    exact ⟨_, _, rfl, reservedBitsZero_encodeC (joinNibbles_zero_and_not rfl rd) (and_not_eq_zero_of_full rfl _)⟩
  | clrf mask => exact ⟨_, _, rfl, reservedBitsZero_encodeC (by decide) (and_not_eq_zero_of_full rfl mask)⟩
  | jmp a | jz a | jnz a => exact ⟨_, _, rfl, reservedBitsZero_encodeD rfl rfl rfl a⟩

/-! ## The decoder ignores reserved fields (R82)

Strings that agree outside the reserved bits have the same unreserved fields, and a row of the opcode map builds its
instruction from unreserved fields only. -/

/-- Two readings of the fields agree on each field that has no reserved bit for the opcode `op`. -/
structure SameFields (op : Byte) (f g : Fields) : Prop where
  first : fieldMask op 1 &&& 0xF0 = 0xF0 → f.first = g.first
  second : fieldMask op 1 &&& 0x0F = 0x0F → f.second = g.second
  imm8 : fieldMask op 2 = 0xFF → f.imm8 = g.imm8
  a24 : fieldMask op 1 = 0xFF → fieldMask op 2 = 0xFF → fieldMask op 3 = 0xFF → f.a24 = g.a24

theorem hiNibble_and (b : Byte) : hiNibble (b &&& 0xF0) = hiNibble b := by
  revert b; decide

theorem loNibble_and (b : Byte) : loNibble (b &&& 0x0F) = loNibble b := by
  revert b; decide

/-- Bytes that agree under a mask agree under each part of it. -/
theorem and_eq_and_of_part {a b m n : Byte} (h : a &&& m = b &&& m) (hn : m &&& n = n) : a &&& n = b &&& n := by
  rw [← hn, ← BitVec.and_assoc, h, BitVec.and_assoc]

/-- Bytes that agree under the full mask are equal. -/
theorem eq_of_and_full {a b m : Byte} (h : a &&& m = b &&& m) (hm : m = 0xFF) : a = b := by
  have hfull : m = BitVec.allOnes 8 := hm
  rwa [hfull, BitVec.and_allOnes, BitVec.and_allOnes] at h

theorem sameFields_of_agree {op : Byte} {rest rest' : List Byte} (h : AgreeOnFields op rest rest') :
    SameFields op (fieldsOf (op :: rest)) (fieldsOf (op :: rest')) := by
  obtain ⟨-, hbyte⟩ := h
  constructor
  case first =>
    intro hm
    simpa only [fieldsOf, hiNibble_and] using congrArg hiNibble (and_eq_and_of_part (hbyte 1) hm)
  case second =>
    intro hm
    simpa only [fieldsOf, loNibble_and] using congrArg loNibble (and_eq_and_of_part (hbyte 1) hm)
  case imm8 => exact eq_of_and_full (hbyte 2)
  case a24 =>
    intro h1 h2 h3
    simp only [fieldsOf, eq_of_and_full (hbyte 1) h1, eq_of_and_full (hbyte 2) h2, eq_of_and_full (hbyte 3) h3]

/-- A row of the opcode map reads no field that is reserved for its opcode. -/
theorem build_eq_of_sameFields {row : OpcodeRow} (hrow : row ∈ opcodeTable) {f g : Fields}
    (h : SameFields row.opcode f g) : row.build f = row.build g := by
  simp only [opcodeTable, List.mem_cons, List.not_mem_nil, or_false] at hrow
  rcases hrow with rfl | rfl | rfl | rfl | rfl | rfl | rfl | rfl | rfl | rfl | rfl | rfl | rfl | rfl | rfl | rfl | rfl |
    rfl | rfl | rfl | rfl
  -- NOP and HALT read nothing.
  iterate 2 rfl
  -- CONJ to DEMM read the first nibble.
  iterate 7 simp only [h.first rfl]
  -- MOV to MIX read both nibbles.
  iterate 5 simp only [h.first rfl, h.second rfl]
  -- LDI, POW and ROOT read the first nibble and the immediate.
  iterate 3 simp only [h.first rfl, h.imm8 rfl]
  -- CLRF reads the immediate alone.
  simp only [h.imm8 rfl]
  -- JMP, JZ and JNZ read the address.
  iterate 3 simp only [h.a24 rfl rfl rfl]

/-- Strings that agree on every field decode alike: an unassigned opcode and a string too short fail by the opcode and
the length alone. -/
theorem decode_eq_of_agree {op : Byte} {rest rest' : List Byte} (h : AgreeOnFields op rest rest') :
    decode (op :: rest) = decode (op :: rest') := by
  have hlen : rest.length = rest'.length := h.1
  cases hop : opcodeRow op with
  | none => rw [decode_unassigned hop, decode_unassigned hop]
  | some row =>
    obtain ⟨hrow, rfl⟩ := opcodeRow_mem hop
    by_cases hshort : rest.length + 1 < row.format.size
    · rw [decode_truncated hop hshort, decode_truncated hop (hlen ▸ hshort), hlen]
    · have hlong : row.format.size ≤ rest.length + 1 := Nat.not_lt.mp hshort
      rw [decode_complete hop hlong, decode_complete hop (hlen ▸ hlong),
        build_eq_of_sameFields hrow (sameFields_of_agree h)]

/-- Settles O5: each format's encoder leaves the reserved bits 0, and no row of the opcode map reads them. -/
theorem reservedFieldsAreIgnored : Obligations.ReservedFieldsAreIgnored :=
  ⟨encode_reservedBitsZero, fun _ _ _ => decode_eq_of_agree⟩

end Sys2Proof.Machine
end

/-! Proofs of the statements about the codec (40_codec.md): the phase table (R108, R109). -/
section
namespace Sys2Proof.Machine

/-! ## The phase table is exact (R108)

The first quadrant is known from the cosine and sine of 0, π/8, π/4 and 3π/8. Four rows further on, both the table and
the functions have made a quarter turn, which takes `(cos, sin)` to `(-sin, cos)`. -/

theorem phaseCos_add_four (theta : Fin 16) : phaseCos (theta + 4) = -phaseSin theta := by
  fin_cases theta <;> simp [phaseCos, phaseSin]

theorem phaseSin_add_four (theta : Fin 16) : phaseSin (theta + 4) = phaseCos theta := by
  fin_cases theta <;> simp [phaseCos, phaseSin]

theorem phaseC1_eq_cos : phaseC1 = Real.cos (Real.pi / 8) := Real.cos_pi_div_eight.symm

theorem phaseS1_eq_sin : phaseS1 = Real.sin (Real.pi / 8) := Real.sin_pi_div_eight.symm

/-- The row of `theta` holds the cosine and sine of an angle. -/
def PhaseRowIs (theta : Fin 16) (angle : ℝ) : Prop :=
  phaseCos theta = Real.cos angle ∧ phaseSin theta = Real.sin angle

theorem PhaseRowIs.quarterTurn {theta : Fin 16} {angle : ℝ} (h : PhaseRowIs theta angle) :
    PhaseRowIs (theta + 4) (angle + Real.pi / 2) := by
  obtain ⟨hcos, hsin⟩ := h
  exact ⟨by rw [phaseCos_add_four, hsin, Real.cos_add_pi_div_two],
    by rw [phaseSin_add_four, hcos, Real.sin_add_pi_div_two]⟩

/-! The rows of the first quadrant. -/

theorem phaseRow_zero : PhaseRowIs 0 0 := ⟨Real.cos_zero.symm, Real.sin_zero.symm⟩

theorem phaseRow_one : PhaseRowIs 1 (Real.pi / 8) := ⟨phaseC1_eq_cos, phaseS1_eq_sin⟩

theorem phaseRow_two : PhaseRowIs 2 (Real.pi / 4) := ⟨Real.cos_pi_div_four.symm, Real.sin_pi_div_four.symm⟩

/-- 3π/8 is the complement of π/8, so its row is that of π/8 with the columns exchanged. -/
theorem phaseRow_three : PhaseRowIs 3 (Real.pi / 2 - Real.pi / 8) :=
  ⟨phaseS1_eq_sin.trans (Real.cos_pi_div_two_sub _).symm, phaseC1_eq_cos.trans (Real.sin_pi_div_two_sub _).symm⟩

/-- The table, read at a count of sixteenths of a turn modulo 16. -/
theorem phaseRow_ofNat : ∀ n : Nat, PhaseRowIs (Fin.ofNat 16 n) (n * Real.pi / 8)
  | 0 => by simpa using phaseRow_zero
  | 1 => by
    change PhaseRowIs 1 _
    simpa using phaseRow_one
  | 2 => by convert phaseRow_two using 1; push_cast; ring
  | 3 => by convert phaseRow_three using 1; push_cast; ring
  | n + 4 => by
    have hrow : Fin.ofNat 16 (n + 4) = Fin.ofNat 16 n + 4 := Fin.ext (Nat.add_mod n 4 16)
    have hangle : ((n + 4 : Nat) : ℝ) * Real.pi / 8 = n * Real.pi / 8 + Real.pi / 2 := by push_cast; ring
    rw [hrow, hangle]
    exact (phaseRow_ofNat n).quarterTurn

/-! ## The lookup output (R109) -/

/-- The greatest phase is 675 half-degrees, so the ten bits of the output hold every product. -/
theorem hdeg_toNat (v : CodecValue) : (hdeg v).toNat = 45 * v.theta.toNat := by
  have htheta : v.theta.toNat < 16 := v.theta.isLt
  rw [hdeg, BitVec.toNat_ofNat]
  exact Nat.mod_eq_of_lt (by omega)

theorem degrees_eq_half_hdeg (v : CodecValue) : degrees v = (hdeg v).toNat / 2 := by
  rw [degrees, hdeg_toNat]
  push_cast
  ring

/-- Settles O51: the first quadrant is exact and quarter turns reach the other rows; the lookup output does not wrap. -/
theorem phaseTableIsExact : Obligations.PhaseTableIsExact := by
  refine ⟨fun theta => ?_, fun v => ⟨hdeg_toNat v, degrees_eq_half_hdeg v⟩⟩
  have hrow : PhaseRowIs (Fin.ofNat 16 theta.val) (theta.val * Real.pi / 8) := phaseRow_ofNat theta.val
  rwa [Fin.ofNat_val_eq_self] at hrow

end Sys2Proof.Machine
end

/-! Proofs of the statements about the ALU commands (41_alu.md): the encoding, the result, the flags and the frame of each. -/
section
namespace Sys2Proof.Machine

/-! ## An ALU command that completes (R140)

Every ALU command but a failing ROOT ends in `complete_writeResult`; a result built by `cv` has its two fields clamped
and reduced, once (R101, R122). -/

/-- An ALU command whose result is `cv r t`: the exact integers clamped and taken modulo 16. -/
theorem complete_cv (fmt : Format) (rd : Reg) (r t : Int) (saturated : Bool) (s : State) :
    ∃ u v, complete fmt (writeResult rd (cv r t, saturated) s) = .next u ∧ AluCompleted rd v saturated fmt.size s u ∧
      v.rho.toInt = clamp r ∧ (v.theta.toNat : Int) = t % 16 := by
  obtain ⟨u, hexec, hdone⟩ := complete_writeResult fmt rd (cv r t, saturated) s
  exact ⟨u, _, hexec, hdone, cv_rho r t, cv_theta r t⟩

/-- An ALU command that saturates: V is set exactly when the exact rho is out of range (R102). -/
theorem complete_cv_sat (fmt : Format) (rd : Reg) (r t : Int) (s : State) :
    ∃ u v saturated, complete fmt (writeResult rd (cv r t, sat r) s) = .next u ∧
      AluCompleted rd v saturated fmt.size s u ∧ v.rho.toInt = clamp r ∧ (v.theta.toNat : Int) = t % 16 ∧
      (saturated = true ↔ r < -8 ∨ 7 < r) := by
  obtain ⟨u, v, hexec, hdone, hrho, htheta⟩ := complete_cv fmt rd r t (sat r) s
  exact ⟨u, v, sat r, hexec, hdone, hrho, htheta, sat_eq_true_iff r⟩

/-- An ALU command whose exact fields are in range: they are the fields of the result. -/
theorem complete_cv_of_mem (fmt : Format) (rd : Reg) {r t : Int} (hr : -8 ≤ r ∧ r ≤ 7) (ht : 0 ≤ t ∧ t ≤ 15)
    (s : State) :
    ∃ u v, complete fmt (writeResult rd (cv r t, false) s) = .next u ∧ AluCompleted rd v false fmt.size s u ∧
      v.rho.toInt = r ∧ (v.theta.toNat : Int) = t := by
  obtain ⟨u, v, hexec, hdone, hrho, htheta⟩ := complete_cv fmt rd r t false s
  exact ⟨u, v, hexec, hdone, by rw [hrho, clamp_of_mem hr.1 hr.2], by omega⟩

/-- A second ALU command on the same register that gives the first one's old value restores every register. -/
theorem AluCompleted.restores {rd : Reg} {v : CodecValue} {b b' : Bool} {size size' : Nat} {s t u : State}
    (first : AluCompleted rd v b size s t) (second : AluCompleted rd (s.reg rd) b' size' t u) (r : Reg) :
    u.reg r = s.reg r := by
  by_cases hr : r = rd
  · rw [hr, second.result]
  · rw [second.others r hr, first.others r hr]

/-! ## MOV and LDI (R150, R151) -/

/-- Settles O7: the result is the old source register. -/
theorem movCopiesRegister : Obligations.MovCopiesRegister :=
  ⟨fun _ _ _ => rfl, fun rd rs s => complete_writeResult .c rd (s.reg rs, false) s⟩

theorem toInt_eq_sext4 (x : BitVec 4) : x.toInt = sext4 x.toNat := by
  revert x; decide

theorem unpack_rho (b : Byte) : (unpack b).rho.toInt = sext4 (b.toNat / 16) := by
  have hnibble : (unpack b).rho.toNat = b.toNat / 16 := by
    have hb : b.toNat < 256 := b.isLt
    simp only [unpack, BitVec.extractLsb'_toNat, Nat.shiftRight_eq_div_pow]
    omega
  rw [toInt_eq_sext4, hnibble]

theorem unpack_theta (b : Byte) : (unpack b).theta.toNat = b.toNat % 16 := by
  simp [unpack, BitVec.extractLsb'_toNat]

/-- Settles O8: the result is the unpacked immediate. -/
theorem ldiLoadsPackedByte : Obligations.LdiLoadsPackedByte := by
  refine ⟨fun _ _ _ => rfl, fun rd imm s => ?_⟩
  obtain ⟨t, hexec, hdone⟩ := complete_writeResult .c rd (unpack imm, false) s
  exact ⟨t, unpack imm, hexec, hdone, unpack_rho imm, unpack_theta imm⟩

/-! ## The commands that saturate: MUL, DIV, POW and INV (R152, R153, R160, R162) -/

/-- Settles O9: the sum of the thetas is a natural number, so its residue is too. -/
theorem mulAddsLogFields : Obligations.MulAddsLogFields := by
  refine ⟨fun _ _ _ => rfl, fun rd rs s => ?_⟩
  obtain ⟨t, v, saturated, hexec, hdone, hrho, htheta, hsat⟩ :=
    complete_cv_sat .c rd ((s.reg rd).rho.toInt + (s.reg rs).rho.toInt)
      ((s.reg rd).theta.toNat + (s.reg rs).theta.toNat) s
  exact ⟨t, v, saturated, hexec, hdone, hrho, by exact_mod_cast htheta, hsat⟩

/-- Settles O10: no divisor is special, so DIV saturates and wraps like any result of `cv`. -/
theorem divSubtractsLogFields : Obligations.DivSubtractsLogFields :=
  ⟨fun _ _ _ => rfl, fun rd rs s => complete_cv_sat .c rd ((s.reg rd).rho.toInt - (s.reg rs).rho.toInt)
    ((s.reg rd).theta.toNat - (s.reg rs).theta.toNat) s⟩

/-- Settles O13: the product of theta and n is a natural number, so its residue is too. -/
theorem powScalesLogFields : Obligations.PowScalesLogFields := by
  refine ⟨fun _ _ _ => rfl, fun rd n s => ?_⟩
  obtain ⟨t, v, saturated, hexec, hdone, hrho, htheta, hsat⟩ :=
    complete_cv_sat .c rd ((s.reg rd).rho.toInt * n) ((s.reg rd).theta.toNat * n) s
  exact ⟨t, v, saturated, hexec, hdone, hrho, by exact_mod_cast htheta, hsat⟩

/-- The negative of a theta, modulo 16, as a natural number. -/
theorem neg_theta_emod (a : CodecValue) : -(a.theta.toNat : Int) % 16 = ((16 - a.theta.toNat) % 16 : Nat) := by
  have htheta := a.theta_lt
  omega

/-- Settles O15: of the rhos, which are at least -8, only -8 has a negative out of range, and it is too large. -/
theorem invNegatesFields : Obligations.InvNegatesFields := by
  refine ⟨fun _ _ => rfl, fun rd s => ?_⟩
  have hbounds := (s.reg rd).rho_bounds
  obtain ⟨t, v, saturated, hexec, hdone, hrho, htheta, hsat⟩ :=
    complete_cv_sat .b rd (-(s.reg rd).rho.toInt) (-(s.reg rd).theta.toNat) s
  refine ⟨t, v, saturated, hexec, hdone, ?_, ?_, ?_⟩
  · rw [hrho, clamp]; omega
  · rw [neg_theta_emod] at htheta; exact_mod_cast htheta
  · rw [hsat]; omega

/-! ## CONJ (R163) -/

theorem conjugate_rho (a : CodecValue) : (conjugate a).1.rho = a.rho := by
  obtain ⟨lo, hi⟩ := a.rho_bounds
  exact BitVec.eq_of_toInt_eq ((cv_rho _ _).trans (clamp_of_mem lo hi))

theorem conjugate_theta (a : CodecValue) : (conjugate a).1.theta.toNat = (16 - a.theta.toNat) % 16 := by
  have htheta : ((conjugate a).1.theta.toNat : Int) = -a.theta.toNat % 16 := cv_theta _ _
  rw [neg_theta_emod] at htheta
  exact_mod_cast htheta

theorem conjugate_conjugate (a : CodecValue) : (conjugate (conjugate a).1).1 = a := by
  have htheta := a.theta_lt
  refine codecValue_ext ?_ ?_
  · rw [conjugate_rho, conjugate_rho]
  · rw [conjugate_theta, conjugate_theta]; omega

/-- Settles O16: rho is in range already, and negating theta twice gives it back modulo 16. -/
theorem conjNegatesTheta : Obligations.ConjNegatesTheta := by
  have conj (rd : Reg) (s : State) := complete_writeResult .b rd (conjugate (s.reg rd)) s
  refine ⟨fun _ _ => rfl, fun rd s => ?_, fun rd s => ?_⟩
  · obtain ⟨t, hexec, hdone⟩ := conj rd s
    exact ⟨t, _, hexec, hdone, conjugate_rho _, conjugate_theta _⟩
  · obtain ⟨t, hexec, hdone⟩ := conj rd s
    obtain ⟨u, hexec', hdone'⟩ := conj rd t
    rw [hdone.result, conjugate_conjugate] at hdone'
    exact ⟨t, u, hexec, hexec', hdone.restores hdone'⟩

/-! ## XOR (R154) -/

/-- The XOR of two packed bytes is the packed byte of the fields' XORs. -/
theorem codecXor_eq (a b : CodecValue) : codecXor a b = (⟨a.rho ^^^ b.rho, a.theta ^^^ b.theta⟩, false) := by
  have hpack : pack ⟨a.rho ^^^ b.rho, a.theta ^^^ b.theta⟩ = pack a ^^^ pack b := BitVec.xor_append.symm
  rw [codecXor, ← hpack, unpack_pack]

theorem codecXor_codecXor (a b : CodecValue) : (codecXor (codecXor a b).1 b).1 = a := by
  simp [codecXor_eq]

/-- Settles O11: XOR acts on each field, and a second XOR reads the same source register when it is not Rd. -/
theorem xorCombinesRawFields : Obligations.XorCombinesRawFields := by
  have xor (rd rs : Reg) (s : State) := complete_writeResult .c rd (codecXor (s.reg rd) (s.reg rs)) s
  refine ⟨fun _ _ _ => rfl, fun rd rs s => ?_, fun rd rs s hne => ?_⟩
  · obtain ⟨t, hexec, hdone⟩ := xor rd rs s
    exact ⟨t, _, hexec, hdone, pack_unpack _, by rw [codecXor_eq], by rw [codecXor_eq]⟩
  · obtain ⟨t, hexec, hdone⟩ := xor rd rs s
    obtain ⟨u, hexec', hdone'⟩ := xor rd rs t
    rw [hdone.result, hdone.others rs hne.symm, codecXor_codecXor] at hdone'
    exact ⟨t, u, hexec, hexec', hdone.restores hdone'⟩

/-! ## MIX (R155) -/

/-- A negative quotient is rounded by its magnitude, and its sign kept. -/
theorem rhazDiv_of_neg {p : Int} (hp : p < 0) (q : Nat) : rhazDiv p q = -rhazDiv (-p) q := by
  rw [rhazDiv, if_neg (not_le.mpr hp), rhazDiv, if_pos (Int.neg_nonneg.mpr hp.le)]

/-- For `p` not negative the exact quotient is less than half above the rounded one and at most half below. -/
theorem rhazDiv_of_nonneg {p : Int} (hp : 0 ≤ p) {q : Nat} (hq : 0 < q) :
    -(q : Int) < 2 * (q * rhazDiv p q - p) ∧ 2 * (q * rhazDiv p q - p) ≤ q := by
  have hq' : (0 : Int) < 2 * q := by omega
  have hdiv := Int.mul_ediv_add_emod (2 * p + q) (2 * q)
  have hlow := Int.emod_nonneg (2 * p + q) hq'.ne'
  have hhigh := Int.emod_lt_of_pos (2 * p + q) hq'
  rw [rhazDiv, if_pos hp]
  rw [mul_assoc] at hdiv
  omega

/-- The rounded quotient is the nearest integer, halves away from zero (00_scope.md R9). -/
theorem rhazDiv_isRhaz (p : Int) {q : Nat} (hq : 0 < q) : IsRhaz p q (rhazDiv p q) := by
  rcases le_or_gt 0 p with hp | hp
  · have hround := rhazDiv_of_nonneg hp hq
    unfold IsRhaz
    omega
  · have hround := rhazDiv_of_nonneg (Int.neg_nonneg.mpr hp.le) hq
    rw [rhazDiv_of_neg hp, IsRhaz, mul_neg]
    omega

/-- Settles O12: a mean of two fields lies between their bounds, so it is neither clamped nor reduced. -/
theorem mixTakesRoundedMeans : Obligations.MixTakesRoundedMeans := by
  refine ⟨fun _ _ _ => rfl, fun rd rs s => ?_⟩
  have hrho := (s.reg rd).rho_bounds
  have hrho' := (s.reg rs).rho_bounds
  have htheta := (s.reg rd).theta_lt
  have htheta' := (s.reg rs).theta_lt
  obtain ⟨t, v, hexec, hdone, hvrho, hvtheta⟩ := complete_cv_of_mem .c rd
    (rhazDiv_bounds (p := (s.reg rd).rho.toInt + (s.reg rs).rho.toInt) two_pos (by omega) (by omega))
    (rhazDiv_bounds (p := (s.reg rd).theta.toNat + (s.reg rs).theta.toNat) two_pos (by omega) (by omega)) s
  refine ⟨t, v, hexec, hdone, ?_, ?_⟩
  · rw [hvrho]; exact rhazDiv_isRhaz _ two_pos
  · rw [hvtheta]; exact rhazDiv_isRhaz _ two_pos

/-! ## ROOT (R161) -/

/-! Division toward zero lies between zero and the number divided, on either side. -/

theorem tdiv_of_nonneg {x : Int} (hx : 0 ≤ x) (n : Nat) : 0 ≤ x.tdiv n ∧ x.tdiv n ≤ x :=
  ⟨Int.tdiv_nonneg hx (Int.natCast_nonneg n), Int.tdiv_le_self n hx⟩

theorem tdiv_of_nonpos {x : Int} (hx : x ≤ 0) (n : Nat) : x ≤ x.tdiv n ∧ x.tdiv n ≤ 0 := by
  have hneg := tdiv_of_nonneg (Int.neg_nonneg.mpr hx) n
  rw [Int.neg_tdiv] at hneg
  omega

/-- Division toward zero keeps the sign. -/
theorem tdiv_mul_self_nonneg (x : Int) (n : Nat) : 0 ≤ x.tdiv n * x := by
  rcases le_total 0 x with hx | hx
  · exact mul_nonneg (tdiv_of_nonneg hx n).1 hx
  · exact mul_nonneg_of_nonpos_of_nonpos (tdiv_of_nonpos hx n).2 hx

/-- Dividing a rho toward zero leaves it in range. -/
theorem rho_tdiv_bounds (a : CodecValue) (n : Nat) : -8 ≤ a.rho.toInt.tdiv n ∧ a.rho.toInt.tdiv n ≤ 7 := by
  have hbounds := a.rho_bounds
  rcases le_total 0 a.rho.toInt with hr | hr
  · have hquot := tdiv_of_nonneg hr n
    omega
  · have hquot := tdiv_of_nonpos hr n
    omega

theorem theta_div_bounds (a : CodecValue) (n : Nat) :
    0 ≤ (a.theta.toNat : Int) / n ∧ (a.theta.toNat : Int) / n ≤ 15 := by
  have htheta := a.theta_lt
  have hnonneg : (0 : Int) ≤ a.theta.toNat := Int.natCast_nonneg _
  exact ⟨Int.ediv_nonneg hnonneg (Int.natCast_nonneg n), (Int.ediv_le_self n hnonneg).trans (by omega)⟩

theorem execRoot_of_ne_zero {n : Nat} (hn : n ≠ 0) (rd : Reg) (s : State) :
    execRoot rd n s = complete .c
      (writeResult rd (cv ((s.reg rd).rho.toInt.tdiv n) ((s.reg rd).theta.toNat / n), false) s) := by
  rw [execRoot, root, if_neg hn]

/-- Settles O14: for n not 0 the quotients are in range, and for n = 0 the command is `failWith`. -/
theorem rootDividesLogFields : Obligations.RootDividesLogFields := by
  refine ⟨fun _ _ _ => rfl, fun rd n s hn => ?_, fun rd s => ⟨_, failWith_failed .rootByZero s⟩⟩
  obtain ⟨t, v, hexec, hdone, hrho, htheta⟩ :=
    complete_cv_of_mem .c rd (rho_tdiv_bounds (s.reg rd) n) (theta_div_bounds (s.reg rd) n) s
  refine ⟨t, v, (execRoot_of_ne_zero hn rd s).trans hexec, hdone, ?_, ?_, by exact_mod_cast htheta⟩
  · rw [hrho]; exact Int.natAbs_tdiv _ n
  · rw [hrho]; exact tdiv_mul_self_nonneg _ n

end Sys2Proof.Machine
end

/-! Proofs of the statements about the mode commands (42_mode.md): promotion, demotion by each fold, and the codes that
name no mode (R181 to R189). -/
section
namespace Sys2Proof.Machine

/-! ## Codes that name no mode (R181) -/

/-- The command is a mode command: it acts on the mode its code names. -/
def IsModeCommand (command : Nat → Instr) (act : Mode → State → State) : Prop :=
  ∀ m s, exec (command m) s = modeCommand m act s

theorem prom_isModeCommand : IsModeCommand .prom promote := fun _ _ => rfl

theorem demt_isModeCommand : IsModeCommand .demt (demote · foldTruncate) := fun _ _ => rfl

theorem demx_isModeCommand : IsModeCommand .demx (demote · foldXor) := fun _ _ => rfl

theorem dema_isModeCommand : IsModeCommand .dema (demote · foldAverage) := fun _ _ => rfl

theorem demm_isModeCommand : IsModeCommand .demm (demote · foldMax) := fun _ _ => rfl

/-- On the code of a mode, a mode command acts and completes. -/
theorem IsModeCommand.exec_code {command : Nat → Instr} {act : Mode → State → State} (h : IsModeCommand command act)
    (target : Mode) (s : State) : exec (command target.code) s = complete .b (act target s) := by
  rw [h, modeCommand_valid]

theorem IsModeCommand.rejectsModeCodes {command : Nat → Instr} {act : Mode → State → State}
    (h : IsModeCommand command act) : RejectsModeCodes command := by
  intro m s hlow _
  rw [h, modeCommand_invalid hlow]
  exact ⟨_, failWith_failed (.invalidMode m) s⟩

/-- A Faulted run takes no step (43_control.md R230). -/
theorem step_ne_next_of_faulted {f : Failure} {s : State} (h : s.runStatus = .faulted f) (t : State) :
    step s ≠ .next t := by
  have hstep : step s = .fault (.faulted f) := by simp [step, fetch, h]
  rw [hstep]
  exact nofun

theorem RejectsModeCodes.stops {command : Nat → Instr} (h : RejectsModeCodes command) {m : Nat} (hlow : 5 ≤ m)
    (hhigh : m ≤ 15) (s : State) :
    ∃ t, exec (command m) s = .next t ∧ FailedWith (.invalidMode m) s t ∧ ∀ u, step t ≠ .next u := by
  obtain ⟨t, hexec, hfailed⟩ := h m s hlow hhigh
  exact ⟨t, hexec, hfailed, step_ne_next_of_faulted hfailed.recorded⟩

/-- Settles O23: each of the five is a mode command, and a failure leaves the run Faulted. -/
theorem invalidModeCodesFail : Obligations.InvalidModeCodesFail := by
  refine ⟨fun _ _ => rfl, rfl, fun m s hlow hhigh => ?_⟩
  simp only [List.forall_mem_cons]
  exact ⟨prom_isModeCommand.rejectsModeCodes.stops hlow hhigh s, demt_isModeCommand.rejectsModeCodes.stops hlow hhigh s,
    demx_isModeCommand.rejectsModeCodes.stops hlow hhigh s, dema_isModeCommand.rejectsModeCodes.stops hlow hhigh s,
    demm_isModeCommand.rejectsModeCodes.stops hlow hhigh s, List.forall_mem_nil _⟩

/-! ## PROM (R182) -/

/-- Promotion writes the mode and nothing else. -/
theorem promote_eq (target : Mode) (s : State) :
    promote target s = { s with mode := if target.count ≤ s.mode.count then s.mode else target } := by
  rcases promote_cases target s with ⟨hle, hkeep⟩ | ⟨hlt, hraise⟩
  · rw [hkeep, if_pos hle]
  · rw [hraise, if_neg (Nat.not_le.mpr hlt)]

/-- Settles O18: a promotion that completes has written the mode alone. -/
theorem promRaisesMode : Obligations.PromRaisesMode := by
  refine ⟨fun _ _ => rfl, prom_isModeCommand.rejectsModeCodes, fun target s => ?_⟩
  rw [prom_isModeCommand.exec_code, promote_eq]
  exact ⟨_, rfl, rfl, fun _ => rfl, fun _ => rfl, ⟨rfl, rfl, rfl, fun _ => rfl⟩, rfl, rfl⟩

/-! ## The common part of the demotions (R183 to R185) -/

/-- A demotion to as many layers or more completes with nothing written. -/
theorem IsModeCommand.keepsAllUpwards {command : Nat → Instr} {fold : Fold}
    (h : IsModeCommand command (demote · fold)) : KeepsAllUpwards command := by
  intro target s hle
  rw [h.exec_code, demote_noop hle]
  exact ⟨_, rfl, fun _ => rfl, fun _ _ => rfl, rfl, ⟨rfl, rfl, rfl, fun _ => rfl⟩, rfl, rfl⟩

/-- A demotion to fewer layers completes, and what holds of each group's fold holds of its kept register. -/
theorem IsModeCommand.demotionCompleted {command : Nat → Instr} {fold : Fold}
    (h : IsModeCommand command (demote · fold)) {target : Mode} {s : State} (hlt : target.count < s.mode.count)
    {kept : Reg → CodecValue → Prop}
    (hkept : ∀ i : Reg, i.val < target.count →
      kept i (fold (s.reg i) (groupTail s target.count (s.mode.count / target.count) i.val))) :
    ∃ t, exec (command target.code) s = .next t ∧ DemotionCompleted target kept s t := by
  obtain ⟨hfold, hnull, hmode, hstatus, hpc, hsp, hfp, hcode, hlen⟩ := demote_effect hlt fold
  refine ⟨_, h.exec_code target s, fun i hi => ?_, fun i hi => ?_, hmode, ?_, fun f hf => ?_,
    ⟨hsp, hfp, hlen, fun a => congrArg (Memory.read · a) hcode⟩, congrArg (· + 2) hpc, rfl⟩
  · exact (hfold i hi).symm ▸ hkept i hi
  · exact (eq_null_iff _).mp (hnull i hi)
  · simp [State.flag, hstatus]
  · simp [State.flag, hstatus, getFlag_putFlag_of_ne _ hf]

/-! ## DEMT (R186) -/

/-- Settles O19: the fold keeps the first member of each group, the kept register itself. -/
theorem demtTruncates : Obligations.DemtTruncates :=
  ⟨fun _ _ => rfl, demt_isModeCommand.rejectsModeCodes, demt_isModeCommand.keepsAllUpwards,
    fun _ _ hlt => demt_isModeCommand.demotionCompleted hlt fun _ _ => rfl⟩

/-! ## DEMX (R187) -/

/-- An XOR accumulated from the left is the initial value against the XOR of the members. -/
theorem foldl_xor_pack (acc : Byte) (xs : List CodecValue) :
    xs.foldl (fun acc x => acc ^^^ pack x) acc = acc ^^^ xs.foldr (fun x acc => pack x ^^^ acc) 0 := by
  induction xs generalizing acc with
  | nil => simp
  | cons x xs ih => rw [List.foldl_cons, ih, List.foldr_cons, BitVec.xor_assoc]

theorem pack_foldXor (first : CodecValue) (rest : List CodecValue) :
    pack (foldXor first rest) = (first :: rest).foldr (fun x acc => pack x ^^^ acc) 0 := by
  rw [foldXor, pack_unpack, foldl_xor_pack, List.foldr_cons]

/-- Settles O20: XOR is associative, so the fold from the left is the XOR over the group. -/
theorem demxFoldsByXor : Obligations.DemxFoldsByXor := by
  refine ⟨fun _ _ => rfl, demx_isModeCommand.rejectsModeCodes, demx_isModeCommand.keepsAllUpwards,
    fun target s hlt => demx_isModeCommand.demotionCompleted hlt fun i hi => ?_⟩
  rw [groupOf_eq hlt hi, pack_foldXor]

/-! ## DEMA (R188) -/

/-- The rounded mean of a field over a group stays between the field's bounds. -/
theorem mean_bounds {field : CodecValue → Int} {lo hi : Int} (hfield : ∀ x, lo ≤ field x ∧ field x ≤ hi)
    (first : CodecValue) (rest : List CodecValue) :
    lo ≤ rhazDiv ((first :: rest).map field).sum (rest.length + 1) ∧
      rhazDiv ((first :: rest).map field).sum (rest.length + 1) ≤ hi := by
  have hlow := List.card_nsmul_le_sum ((first :: rest).map field) lo (by simp [hfield])
  have hhigh := List.sum_le_card_nsmul ((first :: rest).map field) hi (by simp [hfield])
  rw [List.length_map, List.length_cons, nsmul_eq_mul, mul_comm] at hlow hhigh
  exact rhazDiv_bounds rest.length.succ_pos hlow hhigh

/-- Both means are in their field's range, so construction neither clamps nor wraps them. -/
theorem foldAverage_rho (first : CodecValue) (rest : List CodecValue) :
    (foldAverage first rest).rho.toInt =
      rhazDiv ((first :: rest).map fun x => x.rho.toInt).sum (rest.length + 1) := by
  obtain ⟨lo, hi⟩ := mean_bounds CodecValue.rho_bounds first rest
  rw [foldAverage, cv_rho, clamp_of_mem lo hi]

theorem foldAverage_theta (first : CodecValue) (rest : List CodecValue) :
    ((foldAverage first rest).theta.toNat : Int) =
      rhazDiv ((first :: rest).map fun x => (x.theta.toNat : Int)).sum (rest.length + 1) := by
  have htheta (x : CodecValue) : (0 : Int) ≤ x.theta.toNat ∧ (x.theta.toNat : Int) ≤ 15 := by
    have := x.theta_lt
    omega
  obtain ⟨lo, hi⟩ := mean_bounds htheta first rest
  rw [foldAverage, cv_theta]
  exact Int.emod_eq_of_lt lo (by omega)

/-- With its first member, a group has as many members as the counts' quotient says. -/
theorem groupTail_length_succ {s : State} {target : Mode} (h : target.count < s.mode.count) (i : Nat) :
    (groupTail s target.count (s.mode.count / target.count) i).length + 1 = s.mode.count / target.count := by
  have hpos : 0 < s.mode.count / target.count := Nat.div_pos h.le target.count_pos
  simp only [groupTail, List.length_map, List.length_range]
  omega

/-- Settles O21: each field of the fold is the rounded quotient of the group's sum by the group's size. -/
theorem demaFoldsByAverage : Obligations.DemaFoldsByAverage := by
  refine ⟨fun _ _ => rfl, dema_isModeCommand.rejectsModeCodes, dema_isModeCommand.keepsAllUpwards,
    fun target s hlt => dema_isModeCommand.demotionCompleted hlt fun i hi => ?_⟩
  rw [groupOf_eq hlt hi, foldAverage_rho, foldAverage_theta, groupTail_length_succ hlt]
  have hpos : 0 < s.mode.count / target.count := Nat.div_pos hlt.le target.count_pos
  exact ⟨rhazDiv_isRhaz _ hpos, rhazDiv_isRhaz _ hpos⟩

/-! ## DEMM (R189) -/

theorem foldMax_cons (first second : CodecValue) (rest : List CodecValue) :
    foldMax first (second :: rest) = foldMax (largerRho first second) rest := rfl

/-- Of the registers `js`, `j` holds the largest rho, and of those that hold it `j` is the lowest. -/
def IsFirstLargest (s : State) (js : List Reg) (j : Reg) : Prop :=
  j ∈ js ∧ ∀ k ∈ js, (s.reg k).rho.toInt ≤ (s.reg j).rho.toInt ∧
    ((s.reg k).rho.toInt = (s.reg j).rho.toInt → j.val ≤ k.val)

/-- Over registers in rising order, the fold keeps the first of those with the largest rho: the larger of the first two
stands for both of them. -/
theorem foldMax_isFirstLargest (s : State) (first : Reg) (rest : List Reg) (h : (first :: rest).Pairwise (· < ·)) :
    ∃ j, IsFirstLargest s (first :: rest) j ∧ foldMax (s.reg first) (rest.map s.reg) = s.reg j := by
  induction rest generalizing first with
  | nil => exact ⟨first, by simp [IsFirstLargest], rfl⟩
  | cons second rest ih =>
    have hfirst : first < second := List.rel_of_pairwise_cons h List.mem_cons_self
    by_cases hlarger : (s.reg first).rho.toInt < (s.reg second).rho.toInt
    · obtain ⟨j, ⟨hmem, hmax⟩, hfold⟩ := ih second h.of_cons
      refine ⟨j, ⟨List.mem_cons_of_mem _ hmem, List.forall_mem_cons.mpr ⟨?_, hmax⟩⟩, ?_⟩
      · have := (hmax second List.mem_cons_self).1
        omega
      · rw [List.map_cons, foldMax_cons, largerRho, if_pos hlarger, hfold]
    · have hsub : (first :: rest).Sublist (first :: second :: rest) := (List.sublist_cons_self second rest).cons_cons first
      obtain ⟨j, ⟨hmem, hmax⟩, hfold⟩ := ih first (h.sublist hsub)
      obtain ⟨hlead, htail⟩ := List.forall_mem_cons.mp hmax
      refine ⟨j, ⟨hsub.mem hmem, ?_⟩, ?_⟩
      · refine List.forall_mem_cons.mpr ⟨hlead, List.forall_mem_cons.mpr ⟨?_, htail⟩⟩
        have : first.val < second.val := hfirst
        omega
      · rw [List.map_cons, foldMax_cons, largerRho, if_neg hlarger, hfold]

/-- Settles O22: a group's registers are in rising order, so the fold over them keeps the first with the largest rho. -/
theorem demmKeepsLargestRho : Obligations.DemmKeepsLargestRho := by
  refine ⟨fun _ _ => rfl, demm_isModeCommand.rejectsModeCodes, demm_isModeCommand.keepsAllUpwards,
    fun target s hlt => demm_isModeCommand.demotionCompleted hlt fun i hi => ?_⟩
  obtain ⟨first, rest, hgroup, hvalue, htail⟩ := List.map_eq_cons_iff.mp (groupOf_eq hlt hi)
  have hrising : (first :: rest).Pairwise (· < ·) := hgroup ▸ (List.pairwise_lt_finRange 16).filter _
  obtain ⟨j, hj, hfold⟩ := foldMax_isFirstLargest s first rest hrising
  simp only [← hgroup, IsFirstLargest, List.mem_filter, List.mem_finRange, true_and] at hj
  obtain ⟨hmem, hmax⟩ := hj
  rw [← hvalue, ← htail, hfold]
  exact ⟨j, hmem, rfl, hmax⟩

end Sys2Proof.Machine
end

/-! Proofs of the statements about the control commands (43_control.md): NOP, HALT, CLRF, the jumps, and where PC goes. -/
section
namespace Sys2Proof.Machine

/-! ## When the run goes on (R230, R232) -/

/-- After a step that completed, H alone decides. -/
theorem runStatus_of_noFailure {s : State} (h : s.lastFailure = none) :
    s.runStatus = if s.flag .h then .halted else .running := by
  simp only [State.runStatus, h]

theorem flag_h_of_running {s : State} (h : s.runStatus = .running) : s.flag .h = false := by
  unfold State.runStatus at h
  revert h
  cases s.lastFailure <;> cases s.flag .h <;> cases s.flag .e <;> simp

theorem running_of_step_next {s t : State} (h : step s = .next t) : s.runStatus = .running := by
  rcases step_cases s with ⟨-, hs⟩ | ⟨f, -, hs⟩ | ⟨f, hrun, -, -⟩ | ⟨i, hrun, -, -⟩
  · rw [hs] at h; cases h
  · rw [hs] at h; cases h
  · exact hrun
  · exact hrun

/-! ## Completing and jumping with no register and no mode written (R231) -/

/-- A command that writes STATUS at most and completes. -/
theorem complete_withStatus {kept : Flag → Prop} (fmt : Format) {s : State} {status : Byte}
    (hkept : ∀ f, kept f → getFlag status f = s.flag f) :
    ∃ t, complete fmt { s with status := status } = .next t ∧ t.status = status ∧
      ControlCompleted kept (s.pc + BitVec.ofNat 32 fmt.size) s t :=
  ⟨_, rfl, rfl, fun _ => rfl, hkept, rfl, ⟨rfl, rfl, rfl, fun _ => rfl⟩, rfl, rfl⟩

/-- A command that writes nothing and completes. -/
theorem complete_unchanged (fmt : Format) (s : State) :
    ∃ t, complete fmt s = .next t ∧ ControlCompleted (fun _ => True) (s.pc + BitVec.ofNat 32 fmt.size) s t := by
  obtain ⟨t, hcomplete, -, hdone⟩ := complete_withStatus (kept := fun _ => True) fmt (s := s) fun _ _ => rfl
  exact ⟨t, hcomplete, hdone⟩

/-- At or past CODE_LEN a fetch finds no byte (20_memory.md R54), so the step fails. -/
theorem step_past_codeLen {s : State} (hrun : s.runStatus = .running) (hpc : s.codeLen ≤ s.pc.toNat) :
    ∃ t, step s = .next t ∧ FailedWith (.instructionTruncated 1 0) s t := by
  have hbytes : bytesAtPc s = [] := by
    rw [bytesAtPc, avail, if_neg (Nat.not_lt.mpr hpc)]
    rfl
  have hstep : step s = failWith (.instructionTruncated 1 0) s := by
    rw [step, fetch_running hrun, hbytes, decode_nil]
  exact ⟨_, hstep ▸ failWith_failed _ s⟩

theorem targetAddress_toNat (a : Addr24) : (targetAddress a).toNat = a.toNat :=
  BitVec.toNat_setWidth_of_le (by decide)

/-- A taken jump writes PC alone; with a target at or past CODE_LEN the next step finds no byte (R215). -/
theorem jumpTo_completes (a : Addr24) (s : State) :
    ∃ t, jumpTo a s = .next t ∧ ControlCompleted (fun _ => True) (BitVec.ofNat 32 a.toNat) s t ∧
      (s.codeLen ≤ a.toNat → s.flag .h = false →
        ∃ u, step t = .next u ∧ FailedWith (.instructionTruncated 1 0) t u) := by
  have hdone : ControlCompleted (fun _ => True) (BitVec.ofNat 32 a.toNat) s
      { s with pc := targetAddress a, lastFailure := none, begun := true } :=
    ⟨fun _ => rfl, fun _ _ => rfl, rfl, ⟨rfl, rfl, rfl, fun _ => rfl⟩, (BitVec.ofNat_toNat 32 a).symm, rfl⟩
  refine ⟨_, rfl, hdone, fun hlen hh => step_past_codeLen ?_ ?_⟩
  · rw [runStatus_of_noFailure rfl, hdone.flags .h trivial, hh]
    rfl
  · exact hlen.trans_eq (targetAddress_toNat a).symm

/-! ## The jumps (R215 to R217) -/

theorem exec_jz_taken {s : State} (hz : s.flag .z = true) (a : Addr24) : exec (.jz a) s = jumpTo a s := if_pos hz

theorem exec_jz_untaken {s : State} (hz : s.flag .z = false) (a : Addr24) : exec (.jz a) s = complete .d s :=
  if_neg (Bool.eq_false_iff.mp hz)

theorem exec_jnz_taken {s : State} (hz : s.flag .z = false) (a : Addr24) : exec (.jnz a) s = jumpTo a s := if_pos hz

theorem exec_jnz_untaken {s : State} (hz : s.flag .z = true) (a : Addr24) : exec (.jnz a) s = complete .d s :=
  if_neg (by rw [hz]; decide)

/-- Settles O29: the command is `jumpTo`, whatever the state. -/
theorem jmpWritesPc : Obligations.JmpWritesPc :=
  ⟨fun b1 b2 b3 _ => ⟨_, rfl, joinAddr_toNat b1 b2 b3⟩, jumpTo_completes⟩

/-- Settles O30: `jumpTo` if Z is set, else a plain completion. -/
theorem jzJumpsOnZero : Obligations.JzJumpsOnZero := by
  refine ⟨fun b1 b2 b3 _ => ⟨_, rfl, joinAddr_toNat b1 b2 b3⟩, fun a s => ?_⟩
  cases hz : s.flag .z with
  | true =>
    obtain ⟨t, hjump, hdone, hnext⟩ := jumpTo_completes a s
    exact ⟨t, (exec_jz_taken hz a).trans hjump, hdone, fun _ => hnext⟩
  | false =>
    obtain ⟨t, hcomplete, hdone⟩ := complete_unchanged .d s
    exact ⟨t, (exec_jz_untaken hz a).trans hcomplete, hdone, nofun⟩

/-- Settles O31: `jumpTo` if Z is clear, else a plain completion. -/
theorem jnzJumpsOnNonzero : Obligations.JnzJumpsOnNonzero := by
  refine ⟨fun b1 b2 b3 _ => ⟨_, rfl, joinAddr_toNat b1 b2 b3⟩, fun a s => ?_⟩
  cases hz : s.flag .z with
  | true =>
    obtain ⟨t, hcomplete, hdone⟩ := complete_unchanged .d s
    exact ⟨t, (exec_jnz_untaken hz a).trans hcomplete, hdone, nofun⟩
  | false =>
    obtain ⟨t, hjump, hdone, hnext⟩ := jumpTo_completes a s
    exact ⟨t, (exec_jnz_taken hz a).trans hjump, hdone, fun _ => hnext⟩

/-! ## Where PC goes (R231) -/

/-- Whenever the outcome is a state that records no failure, its PC is `pc`. -/
def CompletesAt (pc : Nat) (r : Result) : Prop := ∀ t, r = .next t → t.lastFailure = none → t.pc.toNat = pc

theorem failWith_completesAt (pc : Nat) (f : Failure) (s : State) : CompletesAt pc (failWith f s) := by
  rintro _ ⟨⟩ hok
  cases hok

theorem complete_completesAt (fmt : Format) {s u : State} (hpc : u.pc = s.pc) :
    CompletesAt ((s.pc.toNat + fmt.size) % 2 ^ 32) (complete fmt u) := by
  have hsize := format_size_bounds fmt
  rintro _ ⟨⟩ -
  rw [BitVec.toNat_add, BitVec.toNat_ofNat, hpc, Nat.mod_eq_of_lt (a := fmt.size) (by omega)]

theorem jumpTo_completesAt (a : Addr24) (s : State) : CompletesAt a.toNat (jumpTo a s) := by
  rintro _ ⟨⟩ -
  exact targetAddress_toNat a

theorem modeCommand_completesAt {act : Mode → State → State} {s : State} (hpc : ∀ target, (act target s).pc = s.pc)
    (m : Nat) : CompletesAt ((s.pc.toNat + 2) % 2 ^ 32) (modeCommand m act s) := by
  rcases modeCommand_cases m act s with ⟨-, hfail⟩ | ⟨target, -, hdone⟩
  · exact hfail ▸ failWith_completesAt _ _ s
  · exact hdone ▸ complete_completesAt .b (hpc target)

/-- The PC that R231 gives a command that completes. -/
def pcAfter (s : State) : Instr → Nat
  | .jmp a => a.toNat
  | .jz a => if s.flag .z = true then a.toNat else (s.pc.toNat + 4) % 2 ^ 32
  | .jnz a => if s.flag .z = true then (s.pc.toNat + 4) % 2 ^ 32 else a.toNat
  | i => (s.pc.toNat + (encode i).length) % 2 ^ 32

theorem exec_completesAt (i : Instr) (s : State) : CompletesAt (pcAfter s i) (exec i s) := by
  have hdem (fold : Fold) (target : Mode) := (demote_fixed target fold s).1
  cases i with
  | nop | halt => exact complete_completesAt .a rfl
  | conj | inv => exact complete_completesAt .b rfl
  | prom m => exact modeCommand_completesAt (fun target => (promote_fixed target s).1) m
  | demt m => exact modeCommand_completesAt (hdem foldTruncate) m
  | demx m => exact modeCommand_completesAt (hdem foldXor) m
  | dema m => exact modeCommand_completesAt (hdem foldAverage) m
  | demm m => exact modeCommand_completesAt (hdem foldMax) m
  | mov | mul | div | xor | mix | ldi | pow | clrf => exact complete_completesAt .c rfl
  | root rd n =>
    by_cases hn : n = 0
    · subst hn
      exact failWith_completesAt _ .rootByZero s
    · rw [exec, execRoot_of_ne_zero hn]
      exact complete_completesAt .c rfl
  | jmp a => exact jumpTo_completesAt a s
  | jz a =>
    cases hz : s.flag .z with
    | true =>
      rw [exec_jz_taken hz, pcAfter, if_pos hz]
      exact jumpTo_completesAt a s
    | false =>
      rw [exec_jz_untaken hz, pcAfter, if_neg (Bool.eq_false_iff.mp hz)]
      exact complete_completesAt .d rfl
  | jnz a =>
    cases hz : s.flag .z with
    | true =>
      rw [exec_jnz_untaken hz, pcAfter, if_pos hz]
      exact complete_completesAt .d rfl
    | false =>
      rw [exec_jnz_taken hz, pcAfter, if_neg (Bool.eq_false_iff.mp hz)]
      exact jumpTo_completesAt a s

/-- Settles O37: a step that fails is `raise`, which keeps PC; one that completes is `exec` of the decoded command. -/
theorem pcAdvancesBySize : Obligations.PcAdvancesBySize := by
  intro s t hstep
  obtain ⟨⟨f, rfl, -⟩ | ⟨hok, i, hdecode, hexec⟩, -⟩ := step_next_cases hstep
  · exact ⟨fun _ => rfl, fun _ _ hok => nomatch hok⟩
  · refine ⟨fun hfail => absurd hok hfail, fun j hj _ => ?_⟩
    cases hdecode.symm.trans hj
    have hpc : t.pc.toNat = pcAfter s i := exec_completesAt i s t hexec hok
    rw [hpc]
    cases i <;> rfl

/-! ## NOP, HALT and CLRF (R210 to R212) -/

/-- Settles O26: NOP is a plain completion of format A. -/
theorem nopOnlyAdvancesPc : Obligations.NopOnlyAdvancesPc := ⟨fun _ => rfl, complete_unchanged .a⟩

/-- Settles O27: HALT completes with H written, and a run is Running only with H clear. -/
theorem haltStopsTheRun : Obligations.HaltStopsTheRun := by
  refine ⟨fun _ => rfl, fun s => ?_, fun s t hh hstep => ?_⟩
  · obtain ⟨t, hexec, hstatus, hdone⟩ :=
      complete_withStatus .a (kept := fun f => f ≠ .h) fun _ hf => getFlag_putFlag_of_ne s.status hf true
    have hset : t.flag .h = true := by rw [State.flag, hstatus, getFlag_putFlag_self]
    exact ⟨t, hexec, hset, hdone, by rw [runStatus_of_noFailure hdone.noFailure, if_pos hset]⟩
  · have hclear : s.flag .h = false := flag_h_of_running (running_of_step_next hstep)
    exact absurd (hclear.symm.trans hh) Bool.false_ne_true

/-- Settles O28: CLRF completes with the masked flags cleared, and a flag outside the mask is what it was. -/
theorem clrfClearsMaskedFlags : Obligations.ClrfClearsMaskedFlags := by
  refine ⟨fun _ _ _ => rfl, fun mask s => ?_⟩
  have hflags (f : Flag) := getFlag_clearFlags s.status mask f
  have hkept (f : Flag) (hf : getFlag mask f = false) : getFlag (clearFlags s.status mask) f = s.flag f := by
    rw [hflags, hf, Bool.not_false, Bool.and_true, State.flag]
  obtain ⟨t, hexec, hstatus, hdone⟩ := complete_withStatus .c hkept
  exact ⟨t, hexec, fun f => by rw [State.flag, hstatus, hflags, State.flag], hdone⟩

end Sys2Proof.Machine
end

/-! Proofs of the statements about the host port (44_host_port.md): HREAD, HWRITE, HSAVE and HLOAD. -/
section
namespace Sys2Proof.Machine

/-! ## HREAD and HWRITE (R240, R241) -/

theorem isActive_iff (s : State) (i : Reg) : s.isActive i = true ↔ i.val < s.mode.count := decide_eq_true_iff

/-- At most 16 registers are active, so the sixteen bits of the mask hold it. -/
theorem activeMask_toNat (m : Mode) : (activeMask m).toNat = 2 ^ m.count - 1 := by
  cases m <;> rfl

/-- Settles O53: every field is one the state has; the phase and the mask fit their widths. -/
theorem hreadReturnsRegister : Obligations.HreadReturnsRegister := fun i s =>
  ⟨hread i s, rfl, rfl, rfl, rfl, hdeg_toNat (s.reg i), isActive_iff s i, activeMask_toNat s.mode⟩

/-- Settles O54: HWRITE is `setReg` of the unpacked byte, and packing gives that byte back. -/
theorem hwriteWritesOneRegister : Obligations.HwriteWritesOneRegister := by
  refine fun i b s => ⟨hwrite i b s, rfl, ?_, fun r hr => reg_hwrite_of_ne hr b s, rfl, rfl, rfl, ?_⟩
  · rw [reg_hwrite_self, pack_unpack]
  · exact ⟨rfl, rfl, rfl, fun _ => rfl⟩

/-! ## What HLOAD does (R246, R263) -/

/-- `t` is `s` with the record at the head of `bytes` loaded: every field of the record is written, CODE is kept. -/
structure RecordLoaded (bytes : List Byte) (s t : State) : Prop where
  regs : ∀ i : Reg, t.reg i = unpack (byteAt bytes i)
  pc : t.pc = leWordAt bytes 16
  sp : t.sp = leWordAt bytes 20
  fp : t.fp = leWordAt bytes 24
  status : t.status = byteAt bytes 28
  mode : t.mode.code = (byteAt bytes 29).toNat
  code : t.code = s.code
  codeLen : t.codeLen = s.codeLen

theorem hostStep_hload_of_ok {bytes : List Byte} {s t : State} (h : hload bytes s = .ok t) :
    hostStep (.hload bytes) s = (.done, t) := by
  rw [hostStep, h]

theorem hostStep_hload_of_error {bytes : List Byte} {s : State} {f : Failure} (h : hload bytes s = .error f) :
    hostStep (.hload bytes) s = (.failed f, s) := by
  rw [hostStep, h]

/-- A record of full length with a legal mode byte is loaded. -/
theorem hostStep_hload_loads {bytes : List Byte} (hlen : 30 ≤ bytes.length) (hmode : (byteAt bytes 29).toNat ≤ 4)
    (s : State) : ∃ t, hostStep (.hload bytes) s = (.done, t) ∧ RecordLoaded bytes s t := by
  rcases hload_cases bytes s with
    ⟨hshort, -⟩ | ⟨-, hbad, -⟩ | ⟨-, t, hok, hcode, hregs, hpc, hsp, hfp, hstatus, hmem, hmemLen, -⟩
  · exact absurd hlen (Nat.not_le.mpr hshort)
  · exact absurd hmode (Nat.not_le.mpr hbad)
  · exact ⟨t, hostStep_hload_of_ok hok, hregs, hpc, hsp, hfp, hstatus, hcode, hmem, hmemLen⟩

/-- A 32-bit field is its four bytes, least significant first (20_memory.md R57). -/
theorem leWordAt_toNat (bytes : List Byte) (k : Nat) :
    (leWordAt bytes k).toNat = (byteAt bytes k).toNat + 2 ^ 8 * (byteAt bytes (k + 1)).toNat
      + 2 ^ 16 * (byteAt bytes (k + 2)).toNat + 2 ^ 24 * (byteAt bytes (k + 3)).toNat := by
  have hsplit : leWordAt bytes k =
      joinAddr (byteAt bytes (k + 1)) (byteAt bytes (k + 2)) (byteAt bytes (k + 3)) ++ byteAt bytes k := rfl
  rw [hsplit, BitVec.toNat_append, ← Nat.shiftLeft_add_eq_or_of_lt (byteAt bytes k).isLt, Nat.shiftLeft_eq,
    joinAddr_toNat]
  omega

/-- Settles O57: the cases of `hload_cases`, each with its answer at the host port. -/
theorem hloadLoadsOrChangesNothing : Obligations.HloadLoadsOrChangesNothing := by
  refine fun bytes s => ⟨fun hshort => ?_, fun hlen hbad => ?_, fun hlen hmode => ?_⟩
  · rcases hload_cases bytes s with ⟨-, herr⟩ | ⟨hlen, -⟩ | ⟨hlen, -⟩
    · exact hostStep_hload_of_error herr
    all_goals exact absurd hlen (Nat.not_le.mpr hshort)
  · rcases hload_cases bytes s with ⟨hshort, -⟩ | ⟨-, -, herr⟩ | ⟨-, t, -, hcode, -⟩
    · exact absurd hlen (Nat.not_le.mpr hshort)
    · exact hostStep_hload_of_error herr
    · exact absurd (hcode ▸ t.mode.code_le) (Nat.not_le.mpr hbad)
  · obtain ⟨t, hstep, hload⟩ := hostStep_hload_loads hlen hmode s
    refine ⟨t, hstep, fun i => ?_, ?_, ?_, ?_, hload.status, hload.mode, hload.code, hload.codeLen⟩
    · rw [hload.regs, pack_unpack]
    · rw [hload.pc, leWordAt_toNat]
    · rw [hload.sp, leWordAt_toNat]
    · rw [hload.fp, leWordAt_toNat]

/-! ## The layout of the record (R244)

The record is read field by field: a field that stands at `j` in `ys` stands `xs.length` further on in `xs ++ ys`. -/

theorem byteAt_append_left {xs : List Byte} {k : Nat} (h : k < xs.length) (ys : List Byte) :
    byteAt (xs ++ ys) k = byteAt xs k := List.getD_append xs ys 0 k h

theorem byteAt_append_right {xs : List Byte} {n : Nat} (h : xs.length = n) (ys : List Byte) (k : Nat) :
    byteAt (xs ++ ys) (n + k) = byteAt ys k := by
  subst h
  rw [byteAt, List.getD_append_right _ _ _ _ (Nat.le_add_right _ _), Nat.add_sub_cancel_left, byteAt]

/-- The 32-bit field at `j` holds `w`, least significant byte first (20_memory.md R57). -/
def HoldsWord (bytes : List Byte) (j : Nat) (w : Word) : Prop :=
  ∀ k, k < 4 → byteAt bytes (j + k) = BitVec.ofNat 8 (w.toNat / 256 ^ k)

theorem holdsWord_leBytes_append (w : Word) (rest : List Byte) : HoldsWord (leBytes w ++ rest) 0 w := by
  intro k hk
  have hbyte : byteAt (leBytes w ++ rest) k = w.extractLsb' (8 * k) 8 := by
    match k, hk with
    | 0, _ | 1, _ | 2, _ | 3, _ => rfl
  rw [Nat.zero_add, hbyte, BitVec.extractLsb', Nat.shiftRight_eq_div_pow, Nat.pow_mul]

theorem HoldsWord.append {ys : List Byte} {j : Nat} {w : Word} (h : HoldsWord ys j w) {xs : List Byte} {n : Nat}
    (hlen : xs.length = n) : HoldsWord (xs ++ ys) (n + j) w := by
  intro k hk
  rw [Nat.add_assoc, byteAt_append_right hlen, h k hk]

/-- Reading back a field gives the word that it holds. -/
theorem HoldsWord.leWordAt_eq {bytes : List Byte} {j : Nat} {w : Word} (h : HoldsWord bytes j w) :
    leWordAt bytes j = w := by
  have hbyte (k : Nat) (hk : k < 4) : (byteAt bytes (j + k)).toNat = w.toNat / 256 ^ k % 2 ^ 8 := by
    rw [h k hk, BitVec.toNat_ofNat]
  have hlow : (byteAt bytes j).toNat = w.toNat % 2 ^ 8 := by simpa using hbyte 0 (by decide)
  have hw : w.toNat < 2 ^ 32 := w.isLt
  apply BitVec.eq_of_toNat_eq
  rw [leWordAt_toNat, hlow, hbyte 1 (by decide), hbyte 2 (by decide), hbyte 3 (by decide)]
  omega

/-- The record of `s` stands at the head of `bytes`. -/
structure HoldsRecord (bytes : List Byte) (s : State) : Prop where
  regs : ∀ i : Reg, byteAt bytes i = pack (s.reg i)
  pc : HoldsWord bytes 16 s.pc
  sp : HoldsWord bytes 20 s.sp
  fp : HoldsWord bytes 24 s.fp
  status : byteAt bytes 28 = s.status
  mode : (byteAt bytes 29).toNat = s.mode.code

theorem regBytes_length (s : State) : (s.regs.toList.map pack).length = 16 := by simp

theorem byteAt_regBytes (s : State) (i : Reg) : byteAt (s.regs.toList.map pack) i = pack (s.reg i) := by
  simp [byteAt, State.reg]

theorem hsave_length (s : State) : (hsave s).length = 30 := by
  simp [hsave, leBytes]

theorem hsave_append_eq (s : State) (extra : List Byte) :
    hsave s ++ extra = s.regs.toList.map pack ++ (leBytes s.pc ++ (leBytes s.sp ++ (leBytes s.fp ++
      (s.status :: BitVec.ofNat 8 s.mode.code :: extra)))) := by
  simp [hsave]

theorem holdsRecord_hsave_append (s : State) (extra : List Byte) : HoldsRecord (hsave s ++ extra) s := by
  have hregs := regBytes_length s
  have hmode : s.mode.code < 2 ^ 8 := Nat.lt_of_le_of_lt s.mode.code_le (by decide)
  rw [hsave_append_eq]
  refine ⟨fun i => ?_, ?_, ?_, ?_, ?_, ?_⟩
  · rw [byteAt_append_left (i.isLt.trans_eq hregs.symm), byteAt_regBytes]
  · exact (holdsWord_leBytes_append s.pc _).append hregs
  · exact ((holdsWord_leBytes_append s.sp _).append rfl).append hregs
  · exact (((holdsWord_leBytes_append s.fp _).append rfl).append rfl).append hregs
  · exact byteAt_append_right hregs _ 12
  · rw [byteAt_append_right hregs _ 13]
    exact Nat.mod_eq_of_lt hmode

/-! ## Restoring a saved record (R245, R246) -/

theorem mode_eq_of_code_eq {m k : Mode} (h : m.code = k.code) : m = k :=
  Option.some.inj (by rw [← Mode.ofCode_code m, h, Mode.ofCode_code])

theorem regs_eq_of_reg_eq {s t : State} (h : ∀ i, s.reg i = t.reg i) : s.regs = t.regs :=
  Vector.ext fun i hi => h ⟨i, hi⟩

/-- Settles O56: the record holds each field of the state, and loading reads each field back. -/
theorem recordLayoutAndRestore : Obligations.RecordLayoutAndRestore := by
  refine ⟨fun s => ?_, fun s t extra => ?_⟩
  · have hrec : HoldsRecord (hsave s) s := by simpa using holdsRecord_hsave_append s []
    exact ⟨hsave s, rfl, hsave_length s, hrec.regs, fun k hk => ⟨hrec.pc k hk, hrec.sp k hk, hrec.fp k hk⟩,
      hrec.status, hrec.mode⟩
  · have hrec := holdsRecord_hsave_append s extra
    have hlen : 30 ≤ (hsave s ++ extra).length := by simp [hsave_length]
    obtain ⟨u, hstep, hload⟩ := hostStep_hload_loads hlen (hrec.mode.trans_le s.mode.code_le) t
    refine ⟨u, hstep, regs_eq_of_reg_eq fun i => ?_, ?_, ?_, ?_, ?_, ?_, hload.code, hload.codeLen⟩
    · rw [hload.regs, hrec.regs, unpack_pack]
    · rw [hload.pc, hrec.pc.leWordAt_eq]
    · rw [hload.sp, hrec.sp.leWordAt_eq]
    · rw [hload.fp, hrec.fp.leWordAt_eq]
    · rw [hload.status, hrec.status]
    · exact mode_eq_of_code_eq (hload.mode.trans hrec.mode)

end Sys2Proof.Machine
end

/-! Proof of the statement about failing steps (60_exceptions.md). -/
section
namespace Sys2Proof.Machine

/-- Settles O34: a step that records a failure, of the decode or of the command, is `raise`, and a Faulted run takes no
step; a command that completes records none. -/
theorem failuresChangeOnlyE : Obligations.FailuresChangeOnlyE := by
  intro s t f hstep hfail
  obtain ⟨⟨g, rfl, -⟩ | ⟨hnone, -⟩, -⟩ := step_next_cases hstep
  · cases hfail
    have hfailed : FailedWith f s (raise f s) := (failWith_failed f s).2
    exact ⟨hfailed, step_ne_next_of_faulted hfailed.recorded⟩
  · cases hnone.symm.trans hfail

end Sys2Proof.Machine
end

/-! Proofs of the statements about the encoding (30_encoding.md): the round trip (R81), and how decoding fails (R79,
R80). -/
section
namespace Sys2Proof.Machine

/-! ## Decoding an encoding (R81) -/

/-- The lemmas of `Laws.RoundTrip`, one per constructor, together. -/
theorem decode_encode (i : Instr) : Laws.RoundTrip.Statement i := by
  cases i with
  | nop => exact Laws.RoundTrip.nop
  | halt => exact Laws.RoundTrip.halt
  | conj rd => exact Laws.RoundTrip.conj rd
  | inv rd => exact Laws.RoundTrip.inv rd
  | prom m => exact Laws.RoundTrip.prom m
  | demt m => exact Laws.RoundTrip.demt m
  | demx m => exact Laws.RoundTrip.demx m
  | dema m => exact Laws.RoundTrip.dema m
  | demm m => exact Laws.RoundTrip.demm m
  | mov rd rs => exact Laws.RoundTrip.mov rd rs
  | mul rd rs => exact Laws.RoundTrip.mul rd rs
  | div rd rs => exact Laws.RoundTrip.div rd rs
  | xor rd rs => exact Laws.RoundTrip.xor rd rs
  | mix rd rs => exact Laws.RoundTrip.mix rd rs
  | ldi rd imm => exact Laws.RoundTrip.ldi rd imm
  | pow rd n => exact Laws.RoundTrip.pow rd n
  | root rd n => exact Laws.RoundTrip.root rd n
  | clrf mask => exact Laws.RoundTrip.clrf mask
  | jmp target => exact Laws.RoundTrip.jmp target
  | jz target => exact Laws.RoundTrip.jz target
  | jnz target => exact Laws.RoundTrip.jnz target

/-! ## Encoding what was decoded (R81)

One lemma per format: the encoding of the fields is the head of the string exactly when what the encoder puts in each
byte stands there. -/

/-- The bytes at the head of a string, by position. -/
theorem take_eq_map_byteAt {bytes : List Byte} {k : Nat} (h : k ≤ bytes.length) :
    bytes.take k = (List.range k).map (byteAt bytes) := by
  refine List.ext_getElem (by simp [h]) fun j hj _ => ?_
  have hlen : j < bytes.length := by simp at hj; omega
  simp [byteAt, hlen]

/-- A byte is its two nibbles. -/
theorem joinNibbles_eq_iff (h l : Fin 16) (b : Byte) : joinNibbles h l = b ↔ hiNibble b = h ∧ loNibble b = l := by
  refine ⟨?_, ?_⟩
  · rintro rfl
    exact ⟨hiNibble_join h l, loNibble_join h l⟩
  · rintro ⟨rfl, rfl⟩
    exact join_nibbles b

section formats
variable {op : Byte} {rest : List Byte}

/-- Format B: the second nibble of byte 1 is reserved. -/
theorem encodeB_eq_take_iff (h : 2 ≤ rest.length + 1) :
    encodeB op (hiNibble (byteAt (op :: rest) 1)) = (op :: rest).take 2 ↔
      (loNibble (byteAt (op :: rest) 1) == 0) = true := by
  have hjoin := joinNibbles_eq_iff (hiNibble (byteAt (op :: rest) 1)) 0 (byteAt (op :: rest) 1)
  rw [take_eq_map_byteAt (bytes := op :: rest) h, beq_iff_eq]
  simpa [encodeB, List.range_succ, byteAt] using hjoin

theorem encodeC_eq_take_iff (h : 3 ≤ rest.length + 1) (ra rb : Fin 16) (imm : Byte) :
    encodeC op ra rb imm = (op :: rest).take 3 ↔
      (hiNibble (byteAt (op :: rest) 1) = ra ∧ loNibble (byteAt (op :: rest) 1) = rb) ∧
        imm = byteAt (op :: rest) 2 := by
  rw [take_eq_map_byteAt (bytes := op :: rest) h, ← joinNibbles_eq_iff]
  simp [encodeC, List.range_succ, byteAt]

/-- Format C with byte 2 reserved. -/
theorem encodeC_registers_eq_take_iff (h : 3 ≤ rest.length + 1) :
    encodeC op (hiNibble (byteAt (op :: rest) 1)) (loNibble (byteAt (op :: rest) 1)) 0 = (op :: rest).take 3 ↔
      (byteAt (op :: rest) 2 == 0) = true := by
  rw [encodeC_eq_take_iff h, and_iff_right ⟨rfl, rfl⟩, beq_iff_eq, eq_comm]

/-- Format C with the second nibble of byte 1 reserved. -/
theorem encodeC_immediate_eq_take_iff (h : 3 ≤ rest.length + 1) {imm : Byte} (himm : imm = byteAt (op :: rest) 2) :
    encodeC op (hiNibble (byteAt (op :: rest) 1)) (0 : Fin 16) imm = (op :: rest).take 3 ↔
      (loNibble (byteAt (op :: rest) 1) == 0) = true := by
  rw [encodeC_eq_take_iff h, and_iff_left himm, and_iff_right rfl, beq_iff_eq]

/-- Format C with byte 1 reserved: a byte is 0 exactly when both its nibbles are. -/
theorem encodeC_mask_eq_take_iff (h : 3 ≤ rest.length + 1) :
    encodeC op (0 : Fin 16) (0 : Fin 16) (byteAt (op :: rest) 2) = (op :: rest).take 3 ↔
      (byteAt (op :: rest) 1 == 0) = true := by
  rw [encodeC_eq_take_iff h, and_iff_left rfl, ← joinNibbles_eq_iff, beq_iff_eq, eq_comm]
  rfl

/-- Format D has no reserved field. -/
theorem encodeD_eq_take (h : 4 ≤ rest.length + 1) :
    encodeD op (fieldsOf (op :: rest)).a24 = (op :: rest).take 4 := by
  obtain ⟨h0, h1, h2⟩ := addrByte_join (byteAt (op :: rest) 1) (byteAt (op :: rest) 2) (byteAt (op :: rest) 3)
  rw [take_eq_map_byteAt (bytes := op :: rest) h]
  simp only [encodeD, fieldsOf, h0, h1, h2]
  rfl

end formats

/-- A row of the opcode map: its instruction's encoding is the head of the string exactly when the fields that the row
does not use are 0. -/
theorem encode_build_iff {row : OpcodeRow} (hrow : row ∈ opcodeTable) {rest : List Byte}
    (hlen : row.format.size ≤ rest.length + 1) :
    encode (row.build (fieldsOf (row.opcode :: rest))) = (row.opcode :: rest).take row.format.size ↔
      reservedZero (row.build (fieldsOf (row.opcode :: rest))) (row.opcode :: rest) = true := by
  simp only [opcodeTable, List.mem_cons, List.not_mem_nil, or_false] at hrow
  rcases hrow with rfl | rfl | rfl | rfl | rfl | rfl | rfl | rfl | rfl | rfl | rfl | rfl | rfl | rfl | rfl | rfl | rfl |
    rfl | rfl | rfl | rfl
  -- NOP and HALT have no field.
  iterate 2 exact iff_of_true rfl rfl
  -- CONJ to DEMM: the second nibble is reserved.
  iterate 7 exact encodeB_eq_take_iff hlen
  -- MOV to MIX: byte 2 is reserved.
  iterate 5 exact encodeC_registers_eq_take_iff hlen
  -- LDI, POW and ROOT: the second nibble is reserved.
  · exact encodeC_immediate_eq_take_iff hlen rfl
  iterate 2 exact encodeC_immediate_eq_take_iff hlen (by simp [fieldsOf])
  -- CLRF: byte 1 is reserved.
  · exact encodeC_mask_eq_take_iff hlen
  -- JMP, JZ and JNZ: nothing is reserved.
  iterate 3 exact iff_of_true (encodeD_eq_take hlen) rfl

/-- Settles O4: the round trip of each constructor, and of each row of the opcode map. -/
theorem decodeEncodeAgree : Obligations.DecodeEncodeAgree := by
  refine ⟨fun i hwf => ⟨encode_length i, decode_encode i hwf⟩, fun bytes i hdecode => ?_⟩
  rcases decode_cases bytes with
    ⟨-, hd⟩ | ⟨_, _, -, -, hd⟩ | ⟨_, _, _, -, -, -, hd⟩ | ⟨op, rest, row, rfl, hop, hlen, hd⟩
  case inr.inr.inr =>
    obtain ⟨hrow, rfl⟩ := opcodeRow_mem hop
    obtain ⟨-, hformat, -⟩ := build_wf hrow (fieldsOf (row.opcode :: rest))
    cases hd.symm.trans hdecode
    rw [Instr.size, hformat]
    exact encode_build_iff hrow hlen
  all_goals cases hd.symm.trans hdecode

/-! ## How decoding fails (R79, R80) -/

/-- The assigned opcodes of each format (30_encoding.md R76). -/
theorem opcodeRow_formats :
    (∀ op ∈ ([0x00, 0x01] : List Byte), (opcodeRow op).map (·.format) = some .a) ∧
    (∀ op ∈ ([0x10, 0x11, 0x18, 0x19, 0x1A, 0x1B, 0x1C] : List Byte), (opcodeRow op).map (·.format) = some .b) ∧
    (∀ op ∈ ([0x20, 0x21, 0x22, 0x23, 0x24, 0x30, 0x31, 0x32, 0x38] : List Byte),
      (opcodeRow op).map (·.format) = some .c) ∧
    ∀ op ∈ ([0x40, 0x41, 0x42] : List Byte), (opcodeRow op).map (·.format) = some .d := by
  decide

/-- An opcode of a format decodes or is cut short by that format's size. -/
theorem decode_of_format {op : Byte} {fmt : Format} (h : (opcodeRow op).map (·.format) = some fmt) (rest : List Byte) :
    (rest.length + 1 < fmt.size →
      decode (op :: rest) = .error (.instructionTruncated fmt.size (rest.length + 1))) ∧
    (fmt.size ≤ rest.length + 1 → ∃ i, decode (op :: rest) = .ok i ∧ i.size = fmt.size) := by
  obtain ⟨row, hop, rfl⟩ := Option.map_eq_some_iff.mp h
  obtain ⟨-, hformat, -⟩ := build_wf (opcodeRow_mem hop).1 (fieldsOf (op :: rest))
  exact ⟨decode_truncated hop, fun hlen => ⟨_, decode_complete hop hlen, by rw [Instr.size, hformat]⟩⟩

/-- A byte is unassigned when it is no row's opcode. -/
theorem opcodeRow_eq_none_iff (op : Byte) : opcodeRow op = none ↔ op ∉ opcodeTable.map OpcodeRow.opcode := by
  simp [opcodeRow]

/-- 21 of the 256 bytes are opcodes, each of one row. -/
theorem unassigned_count :
    ((List.range 256).filter fun k => (opcodeRow (BitVec.ofNat 8 k)).isNone).length = 235 := by
  have hfilter : ((List.range 256).filter fun k => (opcodeRow (BitVec.ofNat 8 k)).isNone).toFinset =
      Finset.range 256 \ (opcodeTable.map fun row => row.opcode.toNat).toFinset := by
    ext k
    simp only [List.mem_toFinset, List.mem_filter, List.mem_range, Finset.mem_sdiff, Finset.mem_range,
      Option.isNone_iff_eq_none, opcodeRow_eq_none_iff, List.mem_map, not_exists, not_and]
    refine and_congr_right fun hk => forall₂_congr fun row _ => not_congr ?_
    rw [BitVec.toNat_eq, BitVec.toNat_ofNat, Nat.mod_eq_of_lt hk]
  rw [← List.toFinset_card_of_nodup (List.nodup_range.filter _), hfilter, Finset.card_sdiff_of_subset (by decide),
    Finset.card_range, List.toFinset_card_of_nodup (by decide)]
  rfl

/-- Settles O6: the opcode decides the format and the format the size, or no row has the opcode. -/
theorem decodeFailsOnlyByName : Obligations.DecodeFailsOnlyByName := by
  obtain ⟨ha, hb, hc, hd⟩ := opcodeRow_formats
  refine ⟨decode_nil, fun op rest size hop => ?_, fun op rest hop => ?_, unassigned_count⟩
  · rcases hop with ⟨hop, rfl⟩ | ⟨hop, rfl⟩ | ⟨hop, rfl⟩ | ⟨hop, rfl⟩
    · exact decode_of_format (ha op hop) rest
    · exact decode_of_format (hb op hop) rest
    · exact decode_of_format (hc op hop) rest
    · exact decode_of_format (hd op hop) rest
  · exact decode_unassigned ((opcodeRow_eq_none_iff op).mpr hop) rest

/-- Settles O3: each word is decoded by evaluation. -/
theorem specWordsDecode : Obligations.SpecWordsDecode := by
  unfold Obligations.SpecWordsDecode
  decide

end Sys2Proof.Machine
end

/-! Proofs of the statements about the sequencer (43_control.md, 60_exceptions.md): when a step is taken, what it runs,
when it fails, and what a cleared failure does. -/
section
namespace Sys2Proof.Machine

/-! ## When a step is taken (R230, R232) -/

theorem step_of_decode_ok {s : State} {i : Instr} (hrun : s.runStatus = .running)
    (hdecode : decode (bytesAtPc s) = .ok i) : step s = exec i s := by
  rw [step, fetch_running hrun, hdecode]

theorem step_of_decode_error {s : State} {f : Failure} (hrun : s.runStatus = .running)
    (hdecode : decode (bytesAtPc s) = .error f) : step s = .next (raise f s) := by
  rw [step, fetch_running hrun, hdecode]
  rfl

theorem step_halted {s : State} (h : s.runStatus = .halted) : step s = .fault .halted := by
  simp [step, fetch, h]

theorem step_faulted {s : State} {f : Failure} (h : s.runStatus = .faulted f) : step s = .fault (.faulted f) := by
  simp [step, fetch, h]

theorem step_of_running {s : State} (hrun : s.runStatus = .running) : ∃ t, step s = .next t := by
  cases hdecode : decode (bytesAtPc s) with
  | error f => exact ⟨_, step_of_decode_error hrun hdecode⟩
  | ok i => exact step_of_decode_ok hrun hdecode ▸ exec_answers_next i s

theorem step_ne_refused (s : State) (r : Refusal) : step s ≠ .refused r := by
  cases hrun : s.runStatus with
  | halted => rw [step_halted hrun]; exact nofun
  | faulted f => rw [step_faulted hrun]; exact nofun
  | running =>
    obtain ⟨t, hstep⟩ := step_of_running hrun
    rw [hstep]
    exact nofun

/-- Settles O32: a Running state fetches and decodes, and what decodes is well-formed. -/
theorem stepRunsDecodedInstruction : Obligations.StepRunsDecodedInstruction := fun _ _ hrun hdecode =>
  ⟨step_of_decode_ok hrun hdecode, (decode_ok_wf hdecode).1⟩

/-- `HSTAT` with E written 1 keeps a Faulted run Faulted (log entry 1). -/
theorem hstat_faulted {s : State} {f : Failure} {b : Byte} (hfault : s.runStatus = .faulted f)
    (he : getFlag b .e = true) : (hstat b s).runStatus = .faulted f := by
  obtain ⟨hfailure, herror⟩ := (runStatus_faulted_iff s f).mp hfault
  refine (runStatus_faulted_iff _ f).mpr ⟨?_, he⟩
  rw [hstat_lastFailure, herror, he, hfailure]
  rfl

/-- Settles O36: the cases of the run status; of the host's operations, those not excepted keep the recorded failure and
E. -/
theorem stoppedRunsTakeNoStep : Obligations.StoppedRunsTakeNoStep := by
  refine ⟨fun s => ⟨fun ⟨_, hstep⟩ => running_of_step_next hstep, step_of_running⟩, fun s => step_halted,
    fun s f => step_faulted, step_ne_refused, fun s f op hfault => ?_⟩
  cases op with
  | reset => exact .inr (.inl rfl)
  | hload bytes => exact .inr (.inr (.inl ⟨bytes, rfl⟩))
  | hstat b =>
    cases he : getFlag b .e with
    | false => exact .inr (.inr (.inr ⟨b, rfl, he⟩))
    | true => exact .inl (hstat_faulted hfault he)
  | loadCode bytes =>
    left
    simp only [hostStep]
    split <;> exact hfault
  | hread | hwrite | hstatr | hsave => exact .inl hfault

/-! ## When a step fails (R230, R260, R264) -/

theorem exec_of_commandFailure {i : Instr} {f : Failure} (h : commandFailure i f) (s : State) :
    exec i s = .next (raise f s) := by
  cases f with
  | rootByZero =>
    obtain ⟨rd, rfl⟩ := h
    rfl
  | invalidMode m =>
    obtain ⟨hm, rfl | rfl | rfl | rfl | rfl⟩ := h <;> exact modeCommand_invalid hm _ s
  | invalidOpcode | instructionTruncated | invalidState => exact h.elim

/-- An instruction fails with exactly the failures of its command. -/
theorem exec_failure_iff (i : Instr) (s : State) :
    ∃ t, exec i s = .next t ∧ ∀ f, t.lastFailure = some f ↔ commandFailure i f := by
  obtain ⟨t, hexec⟩ := exec_answers_next i s
  refine ⟨t, hexec, fun f => ⟨fun hfail => ?_, fun hf => ?_⟩⟩
  · rcases exec_cases i s with ⟨g, hg, hraise⟩ | ⟨u, hend, hnone, -⟩
    · cases hraise.symm.trans hexec
      cases hfail
      exact hg
    · cases hend.symm.trans hexec
      cases hnone.symm.trans hfail
  · cases (exec_of_commandFailure hf s).symm.trans hexec
    rfl

/-- The mode commands with the code `m`. -/
def modeCommands (m : Nat) : List Instr := [.prom m, .demt m, .demx m, .dema m, .demm m]

theorem ok_mem_modeCommands {i : Instr} {m : Nat} :
    (.ok i : Except Failure Instr) ∈ [.ok (.prom m), .ok (.demt m), .ok (.demx m), .ok (.dema m), .ok (.demm m)] ↔
      i ∈ modeCommands m := by
  simp [modeCommands]

theorem commandFailure_iff (i : Instr) (f : Failure) :
    commandFailure i f ↔
      (f = .rootByZero ∧ ∃ rd, i = .root rd 0) ∨ ∃ m, 4 < m ∧ f = .invalidMode m ∧ i ∈ modeCommands m := by
  cases f <;> simp [commandFailure, modeCommands, Nat.succ_le_iff]

/-- Settles O35: a decode that fails is raised, and a decoded command fails exactly with its own failures. -/
theorem stepFailsExactlyAsListed : Obligations.StepFailsExactlyAsListed := by
  intro s hrun
  cases hdecode : decode (bytesAtPc s) with
  | error g =>
    refine ⟨_, step_of_decode_error hrun hdecode, fun f => ?_⟩
    simp
  | ok i =>
    obtain ⟨t, hexec, hfail⟩ := exec_failure_iff i s
    refine ⟨t, (step_of_decode_ok hrun hdecode).trans hexec, fun f => ?_⟩
    simp only [hfail, commandFailure_iff, ok_mem_modeCommands, reduceCtorEq, false_or, Except.ok.injEq]

/-! ## A cleared failure (R243, R267) -/

/-- A step that records a failure raised it. -/
theorem eq_raise_of_step_fails {s t : State} {f : Failure} (hstep : step s = .next t) (hfail : t.lastFailure = some f) :
    t = raise f s ∧
      (decode (bytesAtPc s) = .error f ∨ ∃ i, decode (bytesAtPc s) = .ok i ∧ commandFailure i f) := by
  obtain ⟨⟨g, rfl, hcause⟩ | ⟨hnone, -⟩, -⟩ := step_next_cases hstep
  · cases hfail
    exact ⟨rfl, hcause⟩
  · cases hnone.symm.trans hfail

/-- Whether a Running state fails, and with what, depends on the bytes at PC alone. -/
theorem step_eq_raise {s : State} {f : Failure} (hrun : s.runStatus = .running)
    (hcause : decode (bytesAtPc s) = .error f ∨ ∃ i, decode (bytesAtPc s) = .ok i ∧ commandFailure i f) :
    step s = .next (raise f s) := by
  rcases hcause with hdecode | ⟨i, hdecode, hf⟩
  · exact step_of_decode_error hrun hdecode
  · exact (step_of_decode_ok hrun hdecode).trans (exec_of_commandFailure hf s)

/-- Writing H and E 0 starts a run, whatever stopped the last one. -/
theorem hstat_running {b : Byte} (hh : getFlag b .h = false) (he : getFlag b .e = false) (s : State) :
    (hstat b s).runStatus = .running := by
  have hnone : (hstat b s).lastFailure = none := by simp [he]
  rw [runStatus_of_noFailure hnone, State.flag, hstat_status, hh]
  rfl

/-- Setting a flag undoes clearing it, whatever it was set to before. -/
theorem putFlag_putFlag_putFlag (st : Byte) (f : Flag) (a b c : Bool) :
    putFlag (putFlag (putFlag st f a) f b) f c = putFlag st f c := by
  refine status_ext fun g => ?_
  by_cases hg : g = f
  · subst hg
    simp only [getFlag_putFlag_self]
  · simp only [getFlag_putFlag_of_ne _ hg]

/-- Clearing E after a failure and raising it again gives the state of the failure. -/
theorem raise_hstat_raise (f : Failure) (s : State) :
    raise f (hstat (putFlag (raise f s).status .e false) (raise f s)) = raise f s := by
  have hstatus := putFlag_putFlag_putFlag s.status .e true false true
  simp only [raise, hstat, hstatus]

/-- Settles O58: with E clear the run is Running, at the same bytes, so the same failure is raised. -/
theorem clearedFailureFailsAgain : Obligations.ClearedFailureFailsAgain := by
  intro s t f hstep hfail
  obtain ⟨rfl, hcause⟩ := eq_raise_of_step_fails hstep hfail
  have hh : getFlag (putFlag (raise f s).status .e false) .h = false := by
    rw [getFlag_putFlag_of_ne _ (by decide), raise_status, getFlag_putFlag_of_ne _ (by decide)]
    exact flag_h_of_running (running_of_step_next hstep)
  have hrun := hstat_running hh (getFlag_putFlag_self _ _ _) (raise f s)
  exact ⟨_, rfl, hrun, (step_eq_raise hrun hcause).trans (by rw [raise_hstat_raise])⟩

end Sys2Proof.Machine
end

/-! Proofs of the statements about CODE, the host port and the invariant (20_memory.md, 44_host_port.md,
60_exceptions.md section 1, 70_reset_and_hazards.md section 2). -/
section
namespace Sys2Proof.Machine

/-! ## Loading and fetching CODE (R51 to R54, R63, R247) -/

theorem hostStep_loadCode {bytes : List Byte} {s : State} (hlen : bytes.length ≤ 2 ^ 32) (hrun : s.inRun = false) :
    hostStep (.loadCode bytes) s = (.done, loadCode bytes s) := if_pos ⟨hlen, hrun⟩

theorem hostStep_loadCode_inRun {s : State} (hrun : s.inRun = true) (bytes : List Byte) :
    hostStep (.loadCode bytes) s = (.refused, s) :=
  if_neg fun h => Bool.false_ne_true (h.2.symm.trans hrun)

theorem avail_eq (s : State) : avail s = min 4 (s.codeLen - s.pc.toNat) := by
  unfold avail Config.maxInstrBytes
  split <;> omega

theorem bytesAtPc_loadCode (bytes : List Byte) (s : State) :
    bytesAtPc (loadCode bytes s) = (bytes.drop s.pc.toNat).take 4 := by
  have hlen : (bytesAtPc (loadCode bytes s)).length = min 4 (bytes.length - s.pc.toNat) := by
    simp [bytesAtPc, codeRead, avail_eq]
  refine List.ext_getElem (by rw [hlen, List.length_take, List.length_drop]) fun k hk _ => ?_
  have hk' : s.pc.toNat + k < bytes.length := by omega
  simp [bytesAtPc, codeRead, Memory.read_ofBytes, hk']

/-- Settles O33: the loaded cells read as the string's bytes, and CODE_LEN ends the fetch where the string ends. -/
theorem fetchReadsCodeAtPc : Obligations.FetchReadsCodeAtPc := fun bytes s hlen hrun =>
  ⟨_, hostStep_loadCode hlen hrun, rfl, rfl, bytesAtPc_loadCode bytes s⟩

/-- Settles O38: a step keeps CODE and has begun the run; of the host's operations only a load outside a run writes
CODE. -/
theorem onlyTheHostLoadsCode : Obligations.OnlyTheHostLoadsCode := by
  refine ⟨fun s t hstep => ?_, fun op s hchange => ?_⟩
  · obtain ⟨-, hbegun, -, -, hcode, hlen⟩ := step_next_cases hstep
    refine ⟨hcode, hlen, fun hrun => hostStep_loadCode_inRun ?_⟩
    rw [State.inRun, hbegun, hrun]
    rfl
  · rcases hostStep_code op s with ⟨hcode, hlen⟩ | ⟨bytes, hop, hfits, hrun, -⟩
    · exact (hchange.elim (· hcode) (· hlen)).elim
    · exact ⟨hrun, bytes, hop, hfits⟩

/-! ## Boot (R293, R294) -/

/-- Loading a saved record gives the saved state, but for CODE and the run's own fields. -/
theorem hload_hsave (r s : State) :
    hload (hsave r) s =
      .ok { r with code := s.code, codeLen := s.codeLen, lastFailure := none, begun := s.inRun } := by
  have hrec : HoldsRecord (hsave r) r := by simpa using holdsRecord_hsave_append r []
  rcases hload_cases (hsave r) s with
    ⟨hshort, -⟩ | ⟨-, hbad, -⟩ | ⟨-, t, hok, hmode, hregs, hpc, hsp, hfp, hstatus, hcode, hlen, hfailure, hbegun⟩
  · exact absurd hshort (by simp [hsave_length])
  · exact absurd (hrec.mode ▸ r.mode.code_le) (Nat.not_le.mpr hbad)
  · have hregs' : t.regs = r.regs := regs_eq_of_reg_eq fun i => by rw [hregs, hrec.regs, unpack_pack]
    rw [hok]
    cases t
    simp only [Except.ok.injEq, State.mk.injEq]
    exact ⟨hregs', mode_eq_of_code_eq (hmode.trans hrec.mode), hstatus.trans hrec.status,
      hpc.trans hrec.pc.leWordAt_eq, hsp.trans hrec.sp.leWordAt_eq, hfp.trans hrec.fp.leWordAt_eq, hcode, hlen,
      hfailure, hbegun⟩

/-- The record of a `.mode` directive is that of the reset state in the mode. -/
theorem modeRecord_eq_hsave (m : Mode) : modeRecord m = hsave { State.reset with mode := m } := by
  cases m <;> decide

/-- A boot leaves the reset state in the mode, with the program loaded. -/
theorem boot_eq {program : List Byte} (hlen : program.length ≤ Config.maxCodeLen) (m : Mode) (s : State) :
    boot m program s = (.done, loadCode program { State.reset with mode := m }) := by
  unfold boot
  rw [if_pos hlen, modeRecord_eq_hsave, hload_hsave]
  exact hostStep_loadCode hlen rfl

/-- Settles O2: the state that a boot leaves is written out by `boot_eq`. -/
theorem bootStartsInItsMode : Obligations.BootStartsInItsMode := by
  refine fun m program s => ⟨fun hlen => ⟨_, boot_eq hlen m s, rfl, fun i => ?_, rfl, rfl, rfl, rfl,
    runStatus_assertReset State.reset, rfl, rfl, Memory.read_ofBytes program⟩,
    fun hlong => if_neg (Nat.not_le.mpr hlong)⟩
  exact (eq_null_iff _).mp (reg_reset i)

/-! ## HSTATR and HSTAT (R242, R243) -/

/-- A new status byte with H clear starts a Halted run again: E cannot have been set with a failure recorded. -/
theorem hstat_running_of_halted {s : State} {b : Byte} (hhalt : s.runStatus = .halted) (hh : getFlag b .h = false) :
    (hstat b s).runStatus = .running := by
  have hnone : (hstat b s).lastFailure = none := by
    rw [hstat_lastFailure]
    cases hfailure : s.lastFailure with
    | none => exact ite_self none
    | some f =>
      have he : s.flag .e ≠ true := fun he => by
        cases hhalt.symm.trans ((runStatus_faulted_iff s f).mpr ⟨hfailure, he⟩)
      simp [he]
  rw [runStatus_of_noFailure hnone, State.flag, hstat_status, hh]
  rfl

/-- Settles O55: HSTAT writes STATUS, and forgets the recorded failure unless E was and stays set. -/
theorem statusAccessRestartsRuns : Obligations.StatusAccessRestartsRuns :=
  ⟨fun _ => rfl, fun b s => ⟨hstat b s, rfl, rfl, fun _ => rfl, rfl, rfl, ⟨rfl, rfl, rfl, fun _ => rfl⟩,
    fun hh he => hstat_running hh he s, fun hh hhalt => hstat_running_of_halted hhalt hh⟩⟩

/-! ## The failures that a step can record (R260, R261, R264) -/

theorem sequencerFailure_of_decode {bytes : List Byte} {f : Failure} (h : decode bytes = .error f) :
    sequencerFailure f = true := by
  rcases decode_cases bytes with
    ⟨-, hd⟩ | ⟨op, rest, -, hop, hd⟩ | ⟨op, rest, row, -, -, hlen, hd⟩ | ⟨_, _, _, -, -, -, hd⟩
  all_goals cases hd.symm.trans h
  · rfl
  · simp [sequencerFailure, hop]
  · have hsize := (format_size_bounds row.format).2
    simp [sequencerFailure, hlen, hsize]

/-- A decoded mode command holds a code of at most 15, so it can fail only with a code of 5 to 15. -/
theorem sequencerFailure_of_command {i : Instr} {f : Failure} (hwf : i.wf = true) (h : commandFailure i f) :
    sequencerFailure f = true := by
  cases f with
  | rootByZero => rfl
  | invalidMode m =>
    obtain ⟨hlow, rfl | rfl | rfl | rfl | rfl⟩ := h
    all_goals
      have hhigh : m < 16 := of_decide_eq_true hwf
      simp only [sequencerFailure, hlow, Nat.le_of_lt_succ hhigh, decide_true, Bool.and_true]
  | invalidOpcode | instructionTruncated | invalidState => exact h.elim

/-! ## The invariant -/

/-- A recorded failure is one of the sequencer's, with E set. -/
theorem recorded_of_inv {s : State} (hinv : s.inv = true) {f : Failure} (hfail : s.lastFailure = some f) :
    sequencerFailure f = true ∧ s.flag .e = true := by
  obtain ⟨-, -, -, hrecorded⟩ := (inv_iff s).mp hinv
  exact hrecorded f hfail

/-- CODE unchanged, only what is recorded has to be checked. -/
theorem inv_of_sameCode {s t : State} (hinv : s.inv = true) (hcode : t.code = s.code) (hlen : t.codeLen = s.codeLen)
    (hrecorded : ∀ f, t.lastFailure = some f → sequencerFailure f = true ∧ t.flag .e = true) : t.inv = true := by
  obtain ⟨hwf, hbelow, hmax, -⟩ := (inv_iff s).mp hinv
  rw [inv_iff, hcode, hlen]
  exact ⟨hwf, hbelow, hmax, hrecorded⟩

/-- With no failure recorded, only CODE has to be checked. -/
theorem inv_of_noFailure {s t : State} (hinv : s.inv = true) (hcode : t.code = s.code) (hlen : t.codeLen = s.codeLen)
    (hnone : t.lastFailure = none) : t.inv = true :=
  inv_of_sameCode hinv hcode hlen fun _ hfail => nomatch hnone.symm.trans hfail

theorem inv_raise {s : State} {f : Failure} (hinv : s.inv = true) (hf : sequencerFailure f = true) :
    (raise f s).inv = true := by
  refine inv_of_sameCode hinv rfl rfl ?_
  rintro _ ⟨⟩
  exact ⟨hf, getFlag_putFlag_self s.status .e true⟩

/-- Settles O42: no CODE is loaded and no failure recorded, which evaluation shows. -/
theorem resetMeetsInvariant : Obligations.ResetMeetsInvariant := by
  unfold Obligations.ResetMeetsInvariant
  decide

/-- Settles O43: a step keeps CODE, and raises a failure of the decoder or of a well-formed command, or records none. -/
theorem stepsKeepInvariant : Obligations.StepsKeepInvariant := by
  intro s t hinv hstep
  obtain ⟨hend, -, -, -, hcode, hlen⟩ := step_next_cases hstep
  rcases hend with ⟨f, rfl, hdecode | ⟨i, hdecode, hf⟩⟩ | ⟨hnone, -⟩
  · exact inv_raise hinv (sequencerFailure_of_decode hdecode)
  · exact inv_raise hinv (sequencerFailure_of_command (decode_ok_wf hdecode).1 hf)
  · exact inv_of_noFailure hinv hcode hlen hnone

theorem inv_hstat {s : State} (hinv : s.inv = true) (b : Byte) : (hstat b s).inv = true := by
  refine inv_of_sameCode hinv rfl rfl fun f hfail => ?_
  obtain ⟨hkept, hfail⟩ := Option.ite_none_right_eq_some.mp hfail
  exact ⟨(recorded_of_inv hinv hfail).1, (Bool.and_eq_true _ _ ▸ hkept).2⟩

theorem inv_loadCode {s : State} {bytes : List Byte} (hinv : s.inv = true) (hlen : bytes.length ≤ Config.maxCodeLen) :
    (loadCode bytes s).inv = true := by
  have hbelow := Memory.ofBytes_below 0 bytes
  rw [Nat.zero_add] at hbelow
  exact (inv_iff _).mpr ⟨Memory.ofBytes_wf bytes, hbelow, hlen, fun _ => recorded_of_inv hinv⟩

/-- Settles O44: HWRITE keeps what is recorded, HSTAT keeps it only with E, reset and HLOAD forget it, and a load that
is not refused is canonical and fits. -/
theorem hostStepsKeepInvariant : Obligations.HostStepsKeepInvariant := by
  intro op s hinv
  cases op with
  | hread | hstatr | hsave => exact hinv
  | hwrite i b => exact inv_of_sameCode hinv rfl rfl fun _ => recorded_of_inv hinv
  | hstat b => exact inv_hstat hinv b
  | hload bytes =>
    rcases hload_cases bytes s with ⟨-, herr⟩ | ⟨-, -, herr⟩ | ⟨-, t, hok, -, -, -, -, -, -, hcode, hlen, hnone, -⟩
    · rw [hostStep_hload_of_error herr]; exact hinv
    · rw [hostStep_hload_of_error herr]; exact hinv
    · rw [hostStep_hload_of_ok hok]; exact inv_of_noFailure hinv hcode hlen hnone
  | reset => exact inv_of_noFailure hinv rfl rfl rfl
  | loadCode bytes =>
    simp only [hostStep]
    split
    next h => exact inv_loadCode hinv h.1
    next => exact hinv

/-- Settles O45: by induction along the sequencer's steps and the host's operations. -/
theorem reachableStatesMeetInvariant : Obligations.ReachableStatesMeetInvariant := by
  intro s hreach
  induction hreach with
  | refl => exact resetMeetsInvariant
  | step _ hstep ih => exact stepsKeepInvariant _ _ ih hstep
  | host op _ ih => exact hostStepsKeepInvariant op _ ih

end Sys2Proof.Machine
end

/-! Proofs of the statements about the mode and the flags (10_state.md R25, R27, 41_alu.md R141, 42_mode.md R190): what
writes them, and what reads them. -/
section
namespace Sys2Proof.Machine

/-! ## ALU commands in another mode (R141) -/

/-- The machine with MODE written. -/
def State.withMode (s : State) (m : Mode) : State := { s with mode := m }

/-- Whatever state the outcome is, the other outcome is that state with MODE written. -/
def SameInMode (m : Mode) (r r' : Result) : Prop := ∀ t, r = .next t → r' = .next (t.withMode m)

/-- Completing with an ALU result neither reads nor writes MODE. -/
theorem complete_writeResult_withMode (fmt : Format) (rd : Reg) (v : CodecResult) (s : State) (m : Mode) :
    SameInMode m (complete fmt (writeResult rd v s)) (complete fmt (writeResult rd v (s.withMode m))) := by
  rintro _ ⟨⟩
  rfl

theorem exec_withMode {i : Instr} (halu : isAlu i = true) (s : State) (m : Mode) :
    SameInMode m (exec i s) (exec i (s.withMode m)) := by
  cases i with
  | conj rd | inv rd => exact complete_writeResult_withMode .b rd _ s m
  | mov rd | mul rd | div rd | xor rd | mix rd | ldi rd | pow rd => exact complete_writeResult_withMode .c rd _ s m
  | root rd n =>
    by_cases hn : n = 0
    · subst hn
      rintro _ ⟨⟩
      rfl
    · rw [exec, exec, execRoot_of_ne_zero hn, execRoot_of_ne_zero hn]
      exact complete_writeResult_withMode .c rd _ s m
  | _ => cases halu

/-- Settles O17: each ALU command completes with a result that no mode enters, or fails for n = 0 alone. -/
theorem aluIsNotModeSensitive : Obligations.AluIsNotModeSensitive := fun _ s t m halu hexec =>
  exec_withMode halu s m t hexec

/-! ## Promoting and demoting (R190) -/

theorem promote_mode_count (target : Mode) (s : State) :
    s.mode.count ≤ (promote target s).mode.count ∧ target.count ≤ (promote target s).mode.count := by
  rcases promote_cases target s with ⟨hle, hkeep⟩ | ⟨hlt, hraise⟩
  · rw [hkeep]
    exact ⟨le_refl _, hle⟩
  · rw [hraise]
    exact ⟨hlt.le, le_refl _⟩

theorem demote_mode_count (target : Mode) (fold : Fold) (s : State) :
    (demote target fold s).mode.count ≤ s.mode.count ∧ (demote target fold s).mode.count ≤ target.count := by
  rcases le_or_gt s.mode.count target.count with hle | hlt
  · rw [demote_noop hle]
    exact ⟨le_refl _, hle⟩
  · obtain ⟨-, -, hmode, -⟩ := demote_effect hlt fold
    rw [hmode]
    exact ⟨hlt.le, le_refl _⟩

/-- A mode command that has nothing to do after it was done changes nothing when it runs again. -/
theorem IsModeCommand.exec_twice {command : Nat → Instr} {act : Mode → State → State} (h : IsModeCommand command act)
    (target : Mode) (s : State) (hagain : ∀ t, t.mode = (act target s).mode → act target t = t) :
    ∃ t u, exec (command target.code) s = .next t ∧ exec (command target.code) t = .next u ∧
      t.mode = (act target s).mode ∧ u.regs = t.regs ∧ u.mode = t.mode ∧ u.status = t.status := by
  obtain ⟨t, hdone, -, hmode, -⟩ := complete_effect .b (act target s)
  obtain ⟨u, hdone', hregs, hmode', hstatus, -⟩ := complete_effect .b t
  refine ⟨t, u, (h.exec_code target s).trans hdone, ?_, hmode, hregs, hmode', hstatus⟩
  rw [h.exec_code, hagain t hmode, hdone']

theorem IsModeCommand.demotion_idempotent {command : Nat → Instr} {fold : Fold}
    (h : IsModeCommand command (demote · fold)) (target : Mode) (s : State) :
    ∃ t u, exec (command target.code) s = .next t ∧ exec (command target.code) t = .next u ∧
      t.mode.count ≤ s.mode.count ∧ u.regs = t.regs ∧ u.mode = t.mode ∧ u.status = t.status := by
  obtain ⟨hlower, htarget⟩ := demote_mode_count target fold s
  obtain ⟨t, u, hexec, hexec', hmode, hsame⟩ :=
    h.exec_twice target s fun t hmode => demote_noop (hmode ▸ htarget) fold
  exact ⟨t, u, hexec, hexec', hmode ▸ hlower, hsame⟩

/-- Promoting back after an effective demotion restores the mode and no register. -/
theorem IsModeCommand.demotion_then_promotion {command : Nat → Instr} {fold : Fold}
    (h : IsModeCommand command (demote · fold)) {target : Mode} {s : State} (hlt : target.count < s.mode.count) :
    ∃ t u, exec (command target.code) s = .next t ∧ exec (.prom s.mode.code) t = .next u ∧ u.mode = s.mode ∧
      ∀ r : Reg, target.count ≤ r.val → pack (u.reg r) = 0x80 := by
  obtain ⟨t, hexec, hdone⟩ := h.demotionCompleted (kept := fun _ _ => True) hlt fun _ _ => trivial
  refine ⟨t, _, hexec, prom_isModeCommand.exec_code s.mode t, ?_, ?_⟩
  all_goals rw [promote_eq, if_neg (Nat.not_le.mpr (hdone.mode ▸ hlt))]
  exact hdone.cleared

/-- Settles O24: a second command finds the mode at or past its target, and a promotion writes no register. -/
theorem modeChangesAreMonotone : Obligations.ModeChangesAreMonotone := by
  refine ⟨fun target s => ?_, fun target s => ?_, fun target s hlt => ?_⟩
  · obtain ⟨hhigher, htarget⟩ := promote_mode_count target s
    obtain ⟨t, u, hexec, hexec', hmode, hsame⟩ :=
      prom_isModeCommand.exec_twice target s fun t hmode => if_pos (hmode ▸ htarget)
    exact ⟨t, u, hexec, hexec', hmode ▸ hhigher, hsame⟩
  · simp only [List.forall_mem_cons]
    exact ⟨demt_isModeCommand.demotion_idempotent target s, demx_isModeCommand.demotion_idempotent target s,
      dema_isModeCommand.demotion_idempotent target s, demm_isModeCommand.demotion_idempotent target s,
      List.forall_mem_nil _⟩
  · simp only [List.forall_mem_cons]
    exact ⟨demt_isModeCommand.demotion_then_promotion hlt, demx_isModeCommand.demotion_then_promotion hlt,
      dema_isModeCommand.demotion_then_promotion hlt, demm_isModeCommand.demotion_then_promotion hlt,
      List.forall_mem_nil _⟩

/-! ## What writes MODE (R25) -/

/-- Whenever the outcome is a state, its MODE is `m`. -/
def KeepsMode (m : Mode) (r : Result) : Prop := ∀ t, r = .next t → t.mode = m

theorem complete_keepsMode (fmt : Format) (s : State) : KeepsMode s.mode (complete fmt s) := by
  rintro _ ⟨⟩
  rfl

theorem jumpTo_keepsMode (a : Addr24) (s : State) : KeepsMode s.mode (jumpTo a s) := by
  rintro _ ⟨⟩
  rfl

theorem failWith_keepsMode (f : Failure) (s : State) : KeepsMode s.mode (failWith f s) := by
  rintro _ ⟨⟩
  rfl

theorem modeCommand_keepsMode {m : Nat} (hm : 5 ≤ m) (act : Mode → State → State) (s : State) :
    KeepsMode s.mode (modeCommand m act s) := by
  rw [modeCommand_invalid hm]
  exact failWith_keepsMode (.invalidMode m) s

/-- An instruction keeps MODE unless it is a mode command whose code names a mode. -/
theorem exec_keepsMode {i : Instr} (h : ∀ m, m < 5 → i ∉ modeCommands m) (s : State) :
    KeepsMode s.mode (exec i s) := by
  cases i with
  | prom m | demt m | demx m | dema m | demm m =>
    have hm : 5 ≤ m := Nat.not_lt.mp fun hlt => h m hlt (by simp [modeCommands])
    exact modeCommand_keepsMode hm _ s
  | root rd n =>
    by_cases hn : n = 0
    · subst hn
      exact failWith_keepsMode .rootByZero s
    · rw [exec, execRoot_of_ne_zero hn]
      exact complete_keepsMode .c _
  | jz a =>
    rw [exec, execJz]
    split
    · exact jumpTo_keepsMode a s
    · exact complete_keepsMode .d s
  | jnz a =>
    rw [exec, execJnz]
    split
    · exact jumpTo_keepsMode a s
    · exact complete_keepsMode .d s
  | jmp a => exact jumpTo_keepsMode a s
  | _ => exact complete_keepsMode _ _

/-- Every host operation but reset and `HLOAD` keeps MODE. -/
theorem hostStep_keeps_mode {op : HostOp} (hreset : op ≠ .reset) (hload : ∀ bytes, op ≠ .hload bytes) (s : State) :
    (hostStep op s).2.mode = s.mode := by
  cases op with
  | reset => exact absurd rfl hreset
  | hload bytes => exact absurd rfl (hload bytes)
  | loadCode bytes => simp only [hostStep]; split <;> rfl
  | _ => rfl

/-- Settles O25: a failure keeps MODE, and of the instructions and of the host's operations only those named write
it. -/
theorem onlyModeCommandsWriteMode : Obligations.OnlyModeCommandsWriteMode := by
  refine ⟨fun s t hstep hmode => ?_, fun op s hmode => ?_⟩
  · obtain ⟨⟨f, rfl, -⟩ | ⟨-, i, hdecode, hexec⟩, -⟩ := step_next_cases hstep
    · exact absurd rfl hmode
    · by_contra hnone
      refine hmode (exec_keepsMode (fun m hm hi => hnone ⟨m, hm, ?_⟩) s t hexec)
      rw [hdecode]
      exact ok_mem_modeCommands.mpr hi
  · by_contra hop
    obtain ⟨hreset, hload⟩ := not_or.mp hop
    exact hmode (hostStep_keeps_mode hreset (not_exists.mp hload) s)

/-! ## What sets and clears the flags (R27) -/

/-- What a command that completes can do to STATUS, and which command may do it. -/
inductive WritesStatus (s : State) (i : Instr) : Byte → Prop where
  | keeps : WritesStatus s i s.status
  | result (halu : isAlu i = true) (v : CodecValue) (saturated : Bool) :
    WritesStatus s i (setFlags s.status v saturated)
  | halts (hhalt : i = .halt) : WritesStatus s i (putFlag s.status .h true)
  | demotes (hdemotion : isEffectiveDemotion s i = true) : WritesStatus s i (putFlag s.status .m true)
  | clears {mask : Byte} (hclrf : i = .clrf mask) : WritesStatus s i (clearFlags s.status mask)

/-- Whenever the outcome is a state that records no failure, its STATUS is written as the command may. -/
def StatusAfter (s : State) (i : Instr) (r : Result) : Prop :=
  ∀ t, r = .next t → t.lastFailure = none → WritesStatus s i t.status

theorem complete_statusAfter {s u : State} {i : Instr} (h : WritesStatus s i u.status) (fmt : Format) :
    StatusAfter s i (complete fmt u) := by
  rintro _ ⟨⟩ -
  exact h

theorem writeResult_statusAfter {i : Instr} (halu : isAlu i = true) (fmt : Format) (rd : Reg) (v : CodecResult)
    (s : State) : StatusAfter s i (complete fmt (writeResult rd v s)) :=
  complete_statusAfter (.result halu v.1 v.2) fmt

theorem jumpTo_statusAfter (i : Instr) (a : Addr24) (s : State) : StatusAfter s i (jumpTo a s) := by
  rintro _ ⟨⟩ -
  exact .keeps

theorem failWith_statusAfter (i : Instr) (f : Failure) (s : State) : StatusAfter s i (failWith f s) := by
  rintro _ ⟨⟩ hok
  cases hok

theorem modeCommand_statusAfter {s : State} {i : Instr} {m : Nat} {act : Mode → State → State}
    (h : ∀ target : Mode, target.code = m → WritesStatus s i (act target s).status) :
    StatusAfter s i (modeCommand m act s) := by
  rcases modeCommand_cases m act s with ⟨-, hfail⟩ | ⟨target, htarget, hdone⟩
  · exact hfail ▸ failWith_statusAfter i _ s
  · exact hdone ▸ complete_statusAfter (h target htarget) .b

theorem promote_status (target : Mode) (s : State) : (promote target s).status = s.status := by
  rw [promote_eq]

theorem demote_writesStatus {s : State} {i : Instr} {m : Nat} (hi : isEffectiveDemotion s i = lowersMode s m)
    (fold : Fold) (target : Mode) (htarget : target.code = m) : WritesStatus s i (demote target fold s).status := by
  rcases le_or_gt s.mode.count target.count with hle | hlt
  · rw [demote_noop hle]
    exact .keeps
  · obtain ⟨-, -, -, hstatus, -⟩ := demote_effect hlt fold
    rw [hstatus]
    refine .demotes ?_
    rw [hi, ← htarget, lowersMode, Mode.ofCode_code]
    exact decide_eq_true hlt

theorem exec_statusAfter (i : Instr) (s : State) : StatusAfter s i (exec i s) := by
  cases i with
  | nop => exact complete_statusAfter .keeps .a
  | halt => exact complete_statusAfter (.halts rfl) .a
  | conj rd | inv rd => exact writeResult_statusAfter rfl .b rd _ s
  | prom m => exact modeCommand_statusAfter fun target _ => promote_status target s ▸ .keeps
  | demt m | demx m | dema m | demm m => exact modeCommand_statusAfter (demote_writesStatus rfl _)
  | mov rd | mul rd | div rd | xor rd | mix rd | ldi rd | pow rd => exact writeResult_statusAfter rfl .c rd _ s
  | root rd n =>
    by_cases hn : n = 0
    · subst hn
      exact failWith_statusAfter _ .rootByZero s
    · rw [exec, execRoot_of_ne_zero hn]
      exact writeResult_statusAfter rfl .c rd _ s
  | clrf mask => exact complete_statusAfter (.clears rfl) .c
  | jmp a => exact jumpTo_statusAfter _ a s
  | jz a =>
    rw [exec, execJz]
    split
    · exact jumpTo_statusAfter _ a s
    · exact complete_statusAfter .keeps .d
  | jnz a =>
    rw [exec, execJnz]
    split
    · exact jumpTo_statusAfter _ a s
    · exact complete_statusAfter .keeps .d

/-- Setting one flag sets that flag alone and clears none. -/
theorem putFlag_true_sets {st : Byte} {f g : Flag} (hold : getFlag st g = false)
    (hnew : getFlag (putFlag st f true) g = true) : g = f := by
  by_contra hg
  rw [getFlag_putFlag_of_ne _ hg, hold] at hnew
  cases hnew

theorem putFlag_true_clears_none {st : Byte} {f g : Flag} (hold : getFlag st g = true) :
    getFlag (putFlag st f true) g = true := by
  by_cases hg : g = f
  · rw [hg, getFlag_putFlag_self]
  · rw [getFlag_putFlag_of_ne _ hg, hold]

/-- The flags of a result are the only ones that a result changes. -/
theorem flag_of_setFlags_ne {st : Byte} {v : CodecValue} {b : Bool} {f : Flag}
    (h : getFlag (setFlags st v b) f ≠ getFlag st f) : f = .z ∨ f = .n ∨ f = .v := by
  by_contra hf
  obtain ⟨hz, hn, hv⟩ := by simpa only [not_or] using hf
  exact h (getFlag_setFlags_other st v b hz hn hv)

theorem maySet_of_writesStatus {s : State} {i : Instr} {st : Byte} {f : Flag} (h : WritesStatus s i st)
    (hold : s.flag f = false) (hnew : getFlag st f = true) : maySet s i false f = true := by
  cases h with
  | keeps => cases hold.symm.trans hnew
  | result halu v b =>
    have hchange : getFlag (setFlags s.status v b) f ≠ getFlag s.status f := by
      rw [hnew]; exact fun heq => Bool.false_ne_true (hold.symm.trans heq.symm)
    rcases flag_of_setFlags_ne hchange with rfl | rfl | rfl <;> simp [maySet, halu]
  | halts hhalt => cases putFlag_true_sets hold hnew; exact decide_eq_true hhalt
  | demotes hdemotion => cases putFlag_true_sets hold hnew; exact hdemotion
  | clears =>
    rw [getFlag_clearFlags, Bool.and_eq_true] at hnew
    cases hold.symm.trans hnew.1

theorem mayClear_of_writesStatus {s : State} {i : Instr} {st : Byte} {f : Flag} (h : WritesStatus s i st)
    (hold : s.flag f = true) (hnew : getFlag st f = false) : mayClear i false f = true := by
  cases h with
  | keeps => cases hold.symm.trans hnew
  | result halu v b =>
    have hchange : getFlag (setFlags s.status v b) f ≠ getFlag s.status f := by
      rw [hnew]; exact fun heq => Bool.false_ne_true (heq.trans hold)
    have hf := flag_of_setFlags_ne hchange
    unfold mayClear
    split
    · cases halu
    · simpa [halu, or_assoc] using hf
  | halts | demotes => cases (putFlag_true_clears_none hold).symm.trans hnew
  | clears hclrf =>
    subst hclrf
    rw [getFlag_clearFlags, ← State.flag, hold, Bool.true_and, Bool.not_eq_false'] at hnew
    exact hnew

/-- Settles O40: a failure sets E and no other flag, and a command that completes writes STATUS as `WritesStatus`
says. -/
theorem flagsChangeOnlyAsTabled : Obligations.FlagsChangeOnlyAsTabled := by
  intro s t f hstep
  obtain ⟨⟨g, rfl, -⟩ | ⟨hnone, i, hdecode, hexec⟩, -⟩ := step_next_cases hstep
  · exact ⟨fun hold hnew => .inl ⟨putFlag_true_sets hold hnew, nofun⟩,
      fun hold hnew => nomatch (putFlag_true_clears_none hold).symm.trans hnew⟩
  · have hstatus := exec_statusAfter i s t hexec hnone
    rw [hnone, Option.isSome_none]
    exact ⟨fun hold hnew => .inr ⟨i, hdecode, maySet_of_writesStatus hstatus hold hnew⟩,
      fun hold hnew => ⟨i, hdecode, mayClear_of_writesStatus hstatus hold hnew⟩⟩

/-! ## What reads the flags (R31, R33, R35)

STATUS written so that it agrees but for one flag: every meaning gives the same state, but for that flag. Z decides the
conditional jumps, and H and E the status of the run. -/

/-- The machine with STATUS written. -/
def State.withStatus (s : State) (st : Byte) : State := { s with status := st }

/-- Two status bytes agree on every flag but `f`. -/
def AgreeBut (f : Flag) (a b : Byte) : Prop := ∀ g, g ≠ f → getFlag a g = getFlag b g

theorem AgreeBut.putFlag {f : Flag} {a b : Byte} (h : AgreeBut f a b) (g : Flag) (v : Bool) :
    AgreeBut f (putFlag a g v) (putFlag b g v) := by
  intro k hk
  by_cases hg : k = g
  · subst hg
    rw [getFlag_putFlag_self, getFlag_putFlag_self]
  · rw [getFlag_putFlag_of_ne _ hg, getFlag_putFlag_of_ne _ hg, h k hk]

theorem AgreeBut.setFlags {f : Flag} {a b : Byte} (h : AgreeBut f a b) (v : CodecValue) (saturated : Bool) :
    AgreeBut f (setFlags a v saturated) (setFlags b v saturated) :=
  ((h.putFlag _ _).putFlag _ _).putFlag _ _

theorem AgreeBut.clearFlags {f : Flag} {a b : Byte} (h : AgreeBut f a b) (mask : Byte) :
    AgreeBut f (clearFlags a mask) (clearFlags b mask) := by
  intro k hk
  rw [getFlag_clearFlags, getFlag_clearFlags, h k hk]

/-- Both outcomes are states, the second the first but for the flag `f`. -/
def SameBut (f : Flag) (r r' : Result) : Prop :=
  ∃ t st, r = .next t ∧ r' = .next (t.withStatus st) ∧ AgreeBut f st t.status

section reads
variable {f : Flag} {s : State} {st : Byte} (h : AgreeBut f st s.status)
include h

theorem complete_sameBut (fmt : Format) : SameBut f (complete fmt s) (complete fmt (s.withStatus st)) :=
  ⟨_, st, rfl, rfl, h⟩

theorem jumpTo_sameBut (a : Addr24) : SameBut f (jumpTo a s) (jumpTo a (s.withStatus st)) :=
  ⟨_, st, rfl, rfl, h⟩

theorem failWith_sameBut (g : Failure) : SameBut f (failWith g s) (failWith g (s.withStatus st)) :=
  ⟨_, _, rfl, rfl, h.putFlag .e true⟩

theorem writeResult_sameBut (fmt : Format) (rd : Reg) (v : CodecResult) :
    SameBut f (complete fmt (writeResult rd v s)) (complete fmt (writeResult rd v (s.withStatus st))) :=
  ⟨_, _, rfl, rfl, h.setFlags v.1 v.2⟩

/-- A conditional jump reads Z, which agrees. -/
theorem branch_sameBut (hf : f ≠ .z) (z : Bool) (a : Addr24) :
    SameBut f (if s.flag .z = z then jumpTo a s else complete .d s)
      (if (s.withStatus st).flag .z = z then jumpTo a (s.withStatus st) else complete .d (s.withStatus st)) := by
  have hz : (s.withStatus st).flag .z = s.flag .z := h .z hf.symm
  rw [hz]
  split
  · exact jumpTo_sameBut h a
  · exact complete_sameBut h .d

/-- A mode command reads no flag when what it does to the mode reads none. -/
theorem modeCommand_sameBut {act : Mode → State → State}
    (hact : ∀ target, ∃ st', act target (s.withStatus st) = (act target s).withStatus st' ∧
      AgreeBut f st' (act target s).status) (m : Nat) :
    SameBut f (modeCommand m act s) (modeCommand m act (s.withStatus st)) := by
  unfold modeCommand
  cases modeOperand m with
  | error g => exact failWith_sameBut h g
  | ok target =>
    obtain ⟨st', heq, hst'⟩ := hact target
    simp only [heq]
    exact complete_sameBut hst' .b

theorem promote_sameBut (target : Mode) : ∃ st', promote target (s.withStatus st) = (promote target s).withStatus st' ∧
    AgreeBut f st' (promote target s).status := by
  rw [promote_eq, promote_eq]
  exact ⟨st, rfl, h⟩

theorem demote_sameBut (fold : Fold) (target : Mode) :
    ∃ st', demote target fold (s.withStatus st) = (demote target fold s).withStatus st' ∧
      AgreeBut f st' (demote target fold s).status := by
  by_cases hle : s.mode.count ≤ target.count
  · rw [demote_noop hle, demote_noop (s := s.withStatus st) hle]
    exact ⟨st, rfl, h⟩
  · have hle' : ¬(s.withStatus st).mode.count ≤ target.count := hle
    rw [demote, demote, if_neg hle, if_neg hle']
    exact ⟨_, rfl, h.putFlag .m true⟩

theorem exec_sameBut (hf : f ≠ .z) (i : Instr) : SameBut f (exec i s) (exec i (s.withStatus st)) := by
  cases i with
  | nop => exact complete_sameBut h .a
  | halt => exact ⟨_, _, rfl, rfl, h.putFlag .h true⟩
  | conj rd | inv rd => exact writeResult_sameBut h .b rd _
  | prom m => exact modeCommand_sameBut h (promote_sameBut h) m
  | demt m | demx m | dema m | demm m => exact modeCommand_sameBut h (demote_sameBut h _) m
  | mov rd | mul rd | div rd | xor rd | mix rd | ldi rd | pow rd => exact writeResult_sameBut h .c rd _
  | root rd n =>
    by_cases hn : n = 0
    · subst hn
      exact failWith_sameBut h .rootByZero
    · rw [exec, exec, execRoot_of_ne_zero hn, execRoot_of_ne_zero hn]
      exact writeResult_sameBut h .c rd _
  | clrf mask => exact ⟨_, _, rfl, rfl, h.clearFlags mask⟩
  | jmp a => exact jumpTo_sameBut h a
  | jz a => exact branch_sameBut h hf true a
  | jnz a => exact branch_sameBut h hf false a

theorem runStatus_withStatus (hh : f ≠ .h) (he : f ≠ .e) : (s.withStatus st).runStatus = s.runStatus := by
  have hhalt : (s.withStatus st).flag .h = s.flag .h := h .h hh.symm
  have herror : (s.withStatus st).flag .e = s.flag .e := h .e he.symm
  rw [State.runStatus, hhalt, herror]
  rfl

theorem step_sameBut (hz : f ≠ .z) (hh : f ≠ .h) (he : f ≠ .e) (hrun : s.runStatus = .running) :
    SameBut f (step s) (step (s.withStatus st)) := by
  have hrun' : (s.withStatus st).runStatus = .running := (runStatus_withStatus h hh he).trans hrun
  cases hdecode : decode (bytesAtPc s) with
  | error g =>
    rw [step_of_decode_error hrun hdecode, step_of_decode_error hrun' hdecode]
    exact failWith_sameBut h g
  | ok i =>
    rw [step_of_decode_ok hrun hdecode, step_of_decode_ok hrun' hdecode]
    exact exec_sameBut h hz i

end reads

/-- Settles O41: the flags that a step reads, Z, H and E, are none of the five. -/
theorem unreadFlagsSteerNothing : Obligations.UnreadFlagsSteerNothing := by
  intro s t f b hf hstep
  have hread : f ≠ .z ∧ f ≠ .h ∧ f ≠ .e := by
    revert hf
    cases f <;> decide
  obtain ⟨hz, hh, he⟩ := hread
  have hagree : AgreeBut f (putFlag s.status f b) s.status := fun g hg => getFlag_putFlag_of_ne _ hg b
  obtain ⟨u, st, hu, hsame, hst⟩ := step_sameBut hagree hz hh he (running_of_step_next hstep)
  cases hu.symm.trans hstep
  exact ⟨_, hsame, rfl, rfl, rfl, hst, rfl, ⟨rfl, rfl, rfl, fun _ => rfl⟩⟩

end Sys2Proof.Machine
end

/-! Proofs of the statements about the codec (00_scope.md R9, 40_codec.md): packing, construction, the corrected laws,
the rounding, and the conversions to and from Cartesian form. -/
section
namespace Sys2Proof.Machine

/-! ## Packing and construction (R101 to R105) -/

theorem pack_toNat (v : CodecValue) : (pack v).toNat = 16 * (v.rho.toInt % 16).toNat + v.theta.toNat := by
  have hrho : (v.rho.toInt % 16).toNat = v.rho.toNat := by
    have hlt := v.rho.isLt
    rw [BitVec.toInt_eq_toNat_cond]
    split <;> omega
  rw [pack, BitVec.toNat_append, ← Nat.shiftLeft_add_eq_or_of_lt v.theta.isLt, Nat.shiftLeft_eq, hrho, Nat.mul_comm]

/-- Settles O46: each field is read off the byte, and the constants are evaluated. -/
theorem packingIsLossless : Obligations.PackingIsLossless :=
  ⟨pack_toNat, fun b => ⟨unpack_rho b, unpack_theta b⟩, pack_unpack, unpack_pack, by decide⟩

/-- Settles O47: an integer is clamped exactly when it is out of range. -/
theorem constructionClampsAndWraps : Obligations.ConstructionClampsAndWraps := by
  refine fun r t => ⟨cv_rho r t, cv_theta r t, ?_⟩
  rw [sat_eq_true_iff, cv_rho, clamp]
  omega

/-! ## The corrected laws (90_conflicts.md C1, C2) -/

/-- Construction from other integers gives the same value when they are clamped and reduced to the same. -/
theorem cv_congr {r t r' t' : Int} (hr : clamp r = clamp r') (ht : t % 16 = t' % 16) : cv r t = cv r' t' := by
  rw [cv, cv, hr, ht]

/-- Settles O48: the inverse's rho is the negated one, but 7 for -8, and the thetas add up to a multiple of 16. -/
theorem productWithInverse : Obligations.ProductWithInverse := by
  intro a
  have hbounds := a.rho_bounds
  have htheta : ((a.theta.toNat : Int) + ((inverse a).1.theta.toNat : Int)) % 16 = 0 := by
    rw [inverse, cv_theta]
    omega
  have hrho : (inverse a).1.rho.toInt = clamp (-a.rho.toInt) := cv_rho _ _
  unfold multiply
  simp only [hrho]
  split
  next h => exact cv_congr (by rw [h]; decide) htheta
  next h =>
    refine cv_congr ?_ htheta
    rw [clamp_of_mem (x := -a.rho.toInt) (by omega) (by omega), Int.add_right_neg]

/-- Settles O49: in range, the power's fields are the exact products, which the root divides exactly. -/
theorem rootOfPowerRestores : Obligations.RootOfPowerRestores := by
  intro a n hn hlow hhigh htheta
  have hrho : (power a n).1.rho.toInt = a.rho.toInt * n := (cv_rho _ _).trans (clamp_of_mem hlow hhigh)
  have htheta' : ((power a n).1.theta.toNat : Int) = a.theta.toNat * n := by
    refine (cv_theta _ _).trans (Int.emod_eq_of_lt (by positivity) ?_)
    exact_mod_cast Nat.lt_succ_of_le htheta
  have hn' : (n : Int) ≠ 0 := Int.natCast_ne_zero.mpr hn
  rw [root, if_neg hn, hrho, htheta', Int.mul_tdiv_cancel _ hn', Int.mul_ediv_cancel _ hn', cv_self]

/-! ## The rounding (R9) -/

/-- For a quotient that is not negative, both roundings are the floor of the quotient plus a half. -/
theorem rhazReal_div_of_nonneg {p : Int} (hp : 0 ≤ p) {q : Nat} (hq : 0 < q) :
    rhazReal ((p : ℝ) / q) = rhazDiv p q := by
  have hq' : (q : ℝ) ≠ 0 := Nat.cast_ne_zero.mpr hq.ne'
  have hnonneg : 0 ≤ (p : ℝ) / q := div_nonneg (Int.cast_nonneg hp) (Nat.cast_nonneg q)
  have hhalf : (p : ℝ) / q + 1 / 2 = ((2 * p + q : Int) : ℝ) / (2 * q : Nat) := by
    push_cast
    field_simp
  rw [rhazReal, if_pos hnonneg, rhazDiv, if_pos hp, hhalf, Int.floor_div_natCast, Int.floor_intCast]
  push_cast
  rfl

/-- Rounding is odd. -/
theorem rhazReal_of_neg {x : ℝ} (hx : x < 0) : rhazReal x = -rhazReal (-x) := by
  rw [rhazReal, if_neg (not_le.mpr hx), rhazReal, if_pos (neg_nonneg.mpr hx.le)]

theorem rhazReal_div (p : Int) {q : Nat} (hq : 0 < q) : rhazReal ((p : ℝ) / q) = rhazDiv p q := by
  rcases le_or_gt 0 p with hp | hp
  · exact rhazReal_div_of_nonneg hp hq
  · have hneg : (p : ℝ) / q < 0 := div_neg_of_neg_of_pos (Int.cast_lt_zero.mpr hp) (Nat.cast_pos.mpr hq)
    rw [rhazReal_of_neg hneg, rhazDiv_of_neg hp, ← rhazReal_div_of_nonneg (Int.neg_nonneg.mpr hp.le) hq, Int.cast_neg,
      neg_div]

/-- Settles O50: the integer rounding is `IsRhaz`, and the real one agrees with it on both sides of zero. -/
theorem roundingIsHalfAwayFromZero : Obligations.RoundingIsHalfAwayFromZero := fun p _ hq =>
  ⟨rhazDiv_isRhaz p hq, (rhazReal_div p hq).symm⟩

/-! ## Quantizing a Cartesian value (R111, R112)

`Complex.arg` takes an angle in (-π, π], so a theta above 8 is read as the negative theta a whole turn before it. -/

theorem rhazReal_intCast (k : Int) : rhazReal k = k := by
  have hone : rhazDiv k 1 = k := by
    have hround := rhazDiv_near k one_pos
    omega
  have hdiv := rhazReal_div k one_pos
  rwa [Nat.cast_one, div_one, hone] at hdiv

/-- The theta in (-8, 8] that stands for the same phase. -/
def signedTheta (v : CodecValue) : Int := if v.theta.toNat ≤ 8 then v.theta.toNat else v.theta.toNat - 16

theorem signedTheta_bounds (v : CodecValue) : -8 < signedTheta v ∧ signedTheta v ≤ 8 := by
  have htheta := v.theta_lt
  unfold signedTheta
  split <;> omega

theorem cv_signedTheta (v : CodecValue) : cv v.rho.toInt (signedTheta v) = v := by
  refine (cv_congr rfl ?_).trans (cv_self v)
  unfold signedTheta
  split <;> omega

/-- The angle of a codec value, in (-π, π]. -/
noncomputable def signedAngle (v : CodecValue) : ℝ := signedTheta v * Real.pi / 8

theorem signedAngle_mem (v : CodecValue) : signedAngle v ∈ Set.Ioc (-Real.pi) Real.pi := by
  obtain ⟨hlow, hhigh⟩ := signedTheta_bounds v
  have hlow' : (-8 : ℝ) < signedTheta v := by exact_mod_cast hlow
  have hhigh' : (signedTheta v : ℝ) ≤ 8 := by exact_mod_cast hhigh
  have hpi := Real.pi_pos
  constructor <;> unfold signedAngle <;> nlinarith

/-- The signed angle is the phase, or a whole turn before it. -/
theorem signedAngle_eq (v : CodecValue) :
    signedAngle v = v.theta.toNat * Real.pi / 8 ∨ signedAngle v = v.theta.toNat * Real.pi / 8 - 2 * Real.pi := by
  unfold signedAngle signedTheta
  split
  · left
    push_cast
    rfl
  · right
    push_cast
    ring

theorem phase_eq_signedAngle (v : CodecValue) :
    phaseCos v.theta.toFin = Real.cos (signedAngle v) ∧ phaseSin v.theta.toFin = Real.sin (signedAngle v) := by
  obtain ⟨hcos, hsin⟩ := phaseTableIsExact.1 v.theta.toFin
  rw [hcos, hsin]
  rcases signedAngle_eq v with h | h
  · rw [h]
    exact ⟨rfl, rfl⟩
  · rw [h, Real.cos_sub_two_pi, Real.sin_sub_two_pi]
    exact ⟨rfl, rfl⟩

theorem mk_eq_mul_add (r x y : ℝ) : (⟨r * x, r * y⟩ : ℂ) = (r : ℂ) * (x + y * Complex.I) :=
  Complex.ext (by simp) (by simp)

/-- A codec value in the polar form that Mathlib's `arg` and norm are stated for. -/
theorem cartesianExact_eq (v : CodecValue) :
    cartesianExact v = (Real.exp v.rho.toInt : ℝ) *
      (Complex.cos (signedAngle v : ℝ) + Complex.sin (signedAngle v : ℝ) * Complex.I) := by
  obtain ⟨hcos, hsin⟩ := phase_eq_signedAngle v
  rw [cartesianExact, hcos, hsin, ← Complex.ofReal_cos, ← Complex.ofReal_sin]
  exact mk_eq_mul_add _ _ _

theorem arg_cartesianExact (v : CodecValue) : Complex.arg (cartesianExact v) = signedAngle v := by
  rw [cartesianExact_eq]
  exact Complex.arg_mul_cos_add_sin_mul_I (Real.exp_pos _) (signedAngle_mem v)

theorem norm_cartesianExact (v : CodecValue) : ‖cartesianExact v‖ = Real.exp v.rho.toInt := by
  rw [cartesianExact_eq, norm_mul, Complex.norm_cos_add_sin_mul_I, mul_one, Complex.norm_of_nonneg (Real.exp_pos _).le]

theorem quantize_cartesianExact (v : CodecValue) : quantize (cartesianExact v) = v := by
  have hne : cartesianExact v ≠ 0 := norm_ne_zero_iff.mp (norm_cartesianExact v ▸ (Real.exp_pos _).ne')
  have hphase : signedAngle v / (2 * Real.pi) * 16 = signedTheta v := by
    have hpi := Real.pi_ne_zero
    unfold signedAngle
    field_simp
    ring
  rw [quantize, if_neg hne, norm_cartesianExact, Real.log_exp, arg_cartesianExact, hphase, rhazReal_intCast,
    rhazReal_intCast, cv_signedTheta]

/-- Settles O52: exactly 0 is quantized to NULL, and every other reading has its own modulus and argument. -/
theorem quantizeInvertsToCartesian : Obligations.QuantizeInvertsToCartesian := by
  intro nullIs v
  cases nullIs with
  | expMinusEight => exact quantize_cartesianExact v
  | exactZero =>
    by_cases hnull : v = CodecValue.null
    · rw [toCartesian, if_pos hnull, quantize, if_pos rfl, hnull]
    · rw [toCartesian, if_neg hnull, quantize_cartesianExact]

end Sys2Proof.Machine
end

/-! Proofs of the statements about text (30_encoding.md R83, R86) and about several instances (10_state.md R42). -/
section
namespace Sys2Proof.Machine

/-! ## Reading numbers, registers, modes and addresses back (R83, R86) -/

/-- A hex digit is one of sixteen. -/
theorem hexChar_eq_hexChar_fin (d : Nat) : hexChar d = hexChar (Fin.ofNat 16 d) := by
  rw [hexChar, hexChar, Fin.val_ofNat, Nat.mod_mod]

theorem hexDigit_hexChar (d : Nat) : hexDigit (hexChar d) = some (d % 16) := by
  have hdigit : ∀ k : Fin 16, hexDigit (hexChar k) = some k.val := by decide
  rw [hexChar_eq_hexChar_fin]
  exact hdigit (Fin.ofNat 16 d)

theorem hexText_length (k n : Nat) : (hexText k n).length = k := by
  induction k generalizing n with
  | zero => rfl
  | succ k ih => rw [hexText, List.length_append, ih, List.length_singleton]

theorem digitsFrom_append {base : Nat} {digit : Char → Option Nat} {acc m : Nat} {t : Text}
    (h : digitsFrom base digit acc t = some m) (rest : Text) :
    digitsFrom base digit acc (t ++ rest) = digitsFrom base digit m rest := by
  induction t generalizing acc with
  | nil =>
    cases h
    rfl
  | cons c t ih =>
    simp only [List.cons_append, digitsFrom] at h ⊢
    cases hd : digit c with
    | none => simp [hd] at h
    | some d =>
      simp only [hd] at h ⊢
      exact ih h

/-- Reading `k` hex digits gives the number back, modulo `16 ^ k`. -/
theorem digitsFrom_hexText (k n : Nat) : digitsFrom 16 hexDigit 0 (hexText k n) = some (n % 16 ^ k) := by
  induction k generalizing n with
  | zero => simp [hexText, digitsFrom, Nat.mod_one]
  | succ k ih =>
    rw [hexText, digitsFrom_append (ih (n / 16))]
    simp only [digitsFrom, hexDigit_hexChar]
    rw [pow_succ', Nat.mod_mul, Nat.add_comm]

/-- A number in exactly as many hex digits as the form admits is read back. -/
theorem numberOf_hexText {k n : Nat} (hk : k ≠ 0) (hn : n < 16 ^ k) :
    numberOf k (['0', 'x'] ++ hexText k n) = some n := by
  have hlen : ¬((hexText k n).length = 0 ∨ k < (hexText k n).length) := by
    rw [hexText_length]
    omega
  have hread : numberOf k (['0', 'x'] ++ hexText k n) = digitsFrom 16 hexDigit 0 (hexText k n) := if_neg hlen
  rw [hread, digitsFrom_hexText, Nat.mod_eq_of_lt hn]

theorem readReg_regText (r : Reg) : readReg (regText r) = .ok r := by
  revert r
  decide

theorem readImm8_imm8Text {n : Nat} (hn : n < 256) : readImm8 (imm8Text n) = .ok n := by
  rw [readImm8, imm8Text, numberOf_hexText (by decide) hn]
  exact if_pos hn

theorem readMode_modeText {m : Nat} (hm : m ≤ 4) : readMode (modeText m) = .ok m := by
  match m, hm with
  | 0, _ | 1, _ | 2, _ | 3, _ | 4, _ => rfl

/-- A text that begins with a decimal digit is read as a number and not as a label. -/
theorem readAddr_of_number (labels : Labels) {c : Char} {rest : Text} {n : Nat} (hc : (decimalDigit c).isSome = true)
    (hnumber : numberOf 6 (c :: rest) = some n) (hn : n < 2 ^ 24) :
    readAddr labels (c :: rest) = .ok (BitVec.ofNat 24 n) := by
  simp only [readAddr, hc, if_true, hnumber]
  exact if_pos hn

theorem readAddr_addrText (labels : Labels) (a : Addr24) : readAddr labels (addrText a) = .ok a := by
  have hnumber : numberOf 6 (addrText a) = some a.toNat := numberOf_hexText (by decide) a.isLt
  refine (readAddr_of_number labels (c := '0') rfl hnumber a.isLt).trans ?_
  rw [BitVec.ofNat_toNat, BitVec.setWidth_eq]

/-! ## White space (R83) -/

/-- A text that neither begins nor ends with white space. -/
def Trimmed (t : Text) : Prop :=
  (∀ c ∈ t.head?, isBlank c = false) ∧ ∀ c ∈ t.getLast?, isBlank c = false

theorem dropWhile_isBlank {t : Text} (h : ∀ c ∈ t.head?, isBlank c = false) : t.dropWhile isBlank = t := by
  cases t with
  | nil => rfl
  | cons c rest => exact List.dropWhile_cons_of_neg (Bool.eq_false_iff.mp (h c rfl))

theorem Trimmed.trim_eq {t : Text} (h : Trimmed t) : trim t = t := by
  obtain ⟨hhead, hlast⟩ := h
  rw [trim, dropWhile_isBlank hhead, dropWhile_isBlank (by rwa [List.head?_reverse]), List.reverse_reverse]

theorem Trimmed.append {a b : Text} (ha : Trimmed a) (hb : Trimmed b) (hane : a ≠ []) (hbne : b ≠ []) (sep : Text) :
    Trimmed (a ++ sep ++ b) := by
  refine ⟨?_, ?_⟩
  · rw [List.append_assoc, List.head?_append_of_ne_nil _ hane]
    exact ha.1
  · rw [List.getLast?_append_of_ne_nil _ hbne]
    exact hb.2

theorem trim_space_cons (t : Text) : trim (' ' :: t) = trim t := rfl

/-! ## The words of a line (R83, R86) -/

/-- What stands within an operand: no white space, and not the comma between operands. -/
def isWordChar (c : Char) : Bool := !isBlank c && c != ','

/-- One word: what the mnemonics and the operand texts are. -/
def IsWord (t : Text) : Prop := t ≠ [] ∧ ∀ c ∈ t, isWordChar c = true

theorem not_blank_of_isWordChar {c : Char} (h : isWordChar c = true) : isBlank c = false := by
  rw [isWordChar, Bool.and_eq_true, Bool.not_eq_true'] at h
  exact h.1

theorem ne_comma_of_isWordChar {c : Char} (h : isWordChar c = true) : c ≠ ',' := by
  rw [isWordChar, Bool.and_eq_true, bne_iff_ne] at h
  exact h.2

theorem isWord_of_all {t : Text} (hne : t ≠ []) (h : t.all isWordChar = true) : IsWord t :=
  ⟨hne, List.all_eq_true.mp h⟩

theorem IsWord.trimmed {t : Text} (h : IsWord t) : Trimmed t :=
  ⟨fun _ hc => not_blank_of_isWordChar (h.2 _ (List.mem_of_mem_head? hc)),
    fun _ hc => not_blank_of_isWordChar (h.2 _ (List.mem_of_getLast? hc))⟩

theorem hexChar_isWordChar (d : Nat) : isWordChar (hexChar d) = true := by
  have hword : ∀ k : Fin 16, isWordChar (hexChar k) = true := by decide
  rw [hexChar_eq_hexChar_fin]
  exact hword (Fin.ofNat 16 d)

theorem hexText_isWordChar (k n : Nat) : ∀ c ∈ hexText k n, isWordChar c = true := by
  induction k generalizing n with
  | zero => exact List.forall_mem_nil _
  | succ k ih => exact List.forall_mem_append.mpr ⟨ih (n / 16), by simp [hexChar_isWordChar]⟩

theorem hexNumber_isWord (k n : Nat) : IsWord (['0', 'x'] ++ hexText k n) :=
  ⟨List.cons_ne_nil _ _, List.forall_mem_append.mpr ⟨List.all_eq_true.mp rfl, hexText_isWordChar k n⟩⟩

theorem regText_isWord (r : Reg) : IsWord (regText r) :=
  ⟨List.cons_ne_nil _ _, List.forall_mem_cons.mpr ⟨rfl, List.forall_mem_singleton.mpr (hexChar_isWordChar r)⟩⟩

theorem modeText_isWord {m : Nat} (hm : m ≤ 4) : IsWord (modeText m) := by
  match m, hm with
  | 0, _ | 1, _ | 2, _ | 3, _ | 4, _ => exact isWord_of_all (List.cons_ne_nil _ _) rfl

theorem mnemonicText_isWord (i : Instr) : IsWord (mnemonicText i) := by
  cases i <;> exact isWord_of_all (List.cons_ne_nil _ _) rfl

theorem operandTexts_isWord {i : Instr} (h : i.assemblable = true) : ∀ o ∈ operandTexts i, IsWord o := by
  cases i with
  | nop | halt => exact List.forall_mem_nil _
  | conj rd | inv rd => exact List.forall_mem_singleton.mpr (regText_isWord rd)
  | prom m | demt m | demx m | dema m | demm m =>
    exact List.forall_mem_singleton.mpr (modeText_isWord (of_decide_eq_true h))
  | mov rd rs | mul rd rs | div rd rs | xor rd rs | mix rd rs =>
    exact List.forall_mem_cons.mpr ⟨regText_isWord rd, List.forall_mem_singleton.mpr (regText_isWord rs)⟩
  | ldi rd | pow rd | root rd =>
    exact List.forall_mem_cons.mpr ⟨regText_isWord rd, List.forall_mem_singleton.mpr (hexNumber_isWord 2 _)⟩
  | clrf mask => exact List.forall_mem_singleton.mpr (hexNumber_isWord 2 _)
  | jmp a | jz a | jnz a => exact List.forall_mem_singleton.mpr (hexNumber_isWord 6 _)

/-! ## Splitting the line (R83, R86) -/

theorem splitAtChar_of_not_mem {sep : Char} {t : Text} (h : ∀ c ∈ t, c ≠ sep) : splitAtChar sep t = [t] := by
  induction t with
  | nil => rfl
  | cons c t ih =>
    obtain ⟨hc, ht⟩ := List.forall_mem_cons.mp h
    simp only [splitAtChar, if_neg hc, ih ht]

theorem splitAtChar_append {sep : Char} {t : Text} (h : ∀ c ∈ t, c ≠ sep) (rest : Text) :
    splitAtChar sep (t ++ sep :: rest) = t :: splitAtChar sep rest := by
  induction t with
  | nil => exact if_pos rfl
  | cons c t ih =>
    obtain ⟨hc, ht⟩ := List.forall_mem_cons.mp h
    simp only [List.cons_append, splitAtChar, if_neg hc, ih ht]

/-- The comma and the space of `, ` go: the comma by the split, the space by the trim. -/
theorem splitAtChar_joinOperands {o : Text} {os : List Text} (h : ∀ t ∈ o :: os, IsWord t) :
    (splitAtChar ',' (' ' :: joinOperands (o :: os))).map trim = o :: os := by
  induction os generalizing o with
  | nil =>
    have ho := h o List.mem_cons_self
    have hcomma : ∀ c ∈ ' ' :: o, c ≠ ',' :=
      List.forall_mem_cons.mpr ⟨by decide, fun c hc => ne_comma_of_isWordChar (ho.2 c hc)⟩
    rw [joinOperands, splitAtChar_of_not_mem hcomma, List.map_singleton, trim_space_cons, ho.trimmed.trim_eq]
  | cons o' os ih =>
    have ho := h o List.mem_cons_self
    have hcomma : ∀ c ∈ ' ' :: o, c ≠ ',' :=
      List.forall_mem_cons.mpr ⟨by decide, fun c hc => ne_comma_of_isWordChar (ho.2 c hc)⟩
    have hjoin : ' ' :: joinOperands (o :: o' :: os) = (' ' :: o) ++ ',' :: ' ' :: joinOperands (o' :: os) := by
      simp [joinOperands]
    rw [hjoin, splitAtChar_append hcomma, List.map_cons, trim_space_cons, ho.trimmed.trim_eq,
      ih (List.forall_mem_cons.mp h).2]

theorem joinOperands_trimmed {o : Text} {os : List Text} (h : ∀ t ∈ o :: os, IsWord t) :
    joinOperands (o :: os) ≠ [] ∧ Trimmed (joinOperands (o :: os)) := by
  induction os generalizing o with
  | nil =>
    have ho := h o List.mem_cons_self
    exact ⟨ho.1, ho.trimmed⟩
  | cons o' os ih =>
    have ho := h o List.mem_cons_self
    obtain ⟨hne, htrimmed⟩ := ih (List.forall_mem_cons.mp h).2
    exact ⟨by simp [joinOperands], ho.trimmed.append htrimmed ho.1 hne [',', ' ']⟩

/-- The text after the mnemonic. -/
def operandTail : List Text → Text
  | [] => []
  | o :: os => ' ' :: joinOperands (o :: os)

theorem disassemble_eq (i : Instr) : disassemble i = mnemonicText i ++ operandTail (operandTexts i) := by
  unfold disassemble
  cases operandTexts i <;> simp [operandTail]

theorem splitOperands_operandTail {ops : List Text} (h : ∀ o ∈ ops, IsWord o) :
    splitOperands (operandTail ops) = ops := by
  cases ops with
  | nil => rfl
  | cons o os =>
    obtain ⟨hne, htrimmed⟩ := joinOperands_trimmed h
    have hsome : trim (operandTail (o :: os)) ≠ [] := by
      rwa [operandTail, trim_space_cons, htrimmed.trim_eq]
    rw [splitOperands, if_neg hsome, operandTail, splitAtChar_joinOperands h]

/-- The canonical line has no white space around it. -/
theorem trim_line {name : Text} {ops : List Text} (hname : IsWord name) (hops : ∀ o ∈ ops, IsWord o) :
    trim (name ++ operandTail ops) = name ++ operandTail ops := by
  cases ops with
  | nil => simpa [operandTail] using hname.trimmed.trim_eq
  | cons o os =>
    obtain ⟨hne, htrimmed⟩ := joinOperands_trimmed hops
    have hline := (hname.trimmed.append htrimmed hname.1 hne [' ']).trim_eq
    simpa [operandTail] using hline

/-- The mnemonic is the line up to the first white space. -/
theorem takeWhile_line {name : Text} (hname : IsWord name) (ops : List Text) :
    (name ++ operandTail ops).takeWhile (fun c => !isBlank c) = name := by
  have hword : ∀ c ∈ name, (!isBlank c) = true := fun c hc => by
    rw [not_blank_of_isWordChar (hname.2 c hc)]
    rfl
  have htail : (operandTail ops).takeWhile (fun c => !isBlank c) = [] := by
    cases ops <;> rfl
  rw [List.takeWhile_append_of_pos hword, htail, List.append_nil]

/-! ## Reading the canonical text back (R83, R86) -/

/-- The line is read by the row of its mnemonic, from the operand texts. -/
theorem readInstr_disassemble {i : Instr} {row : SyntaxRow} (h : i.assemblable = true)
    (hrow : syntaxTable.find? (fun row => row.mnemonic == mnemonicText i) = some row) (labels : Labels) :
    readInstr labels (disassemble i) = row.read labels (operandTexts i) := by
  have hname := mnemonicText_isWord i
  have hops := operandTexts_isWord h
  simp only [readInstr, disassemble_eq, trim_line hname hops, takeWhile_line hname, hrow, List.drop_left,
    splitOperands_operandTail hops]

theorem formOne_ok {α : Type} {read : Text → Except DiagnosticKind α} {t : Text} {a : α} (h : read t = .ok a)
    (mk : α → Instr) : formOne read mk [t] = .ok (mk a) := by
  rw [formOne, h]
  rfl

theorem formTwo_ok {α β : Type} {readA : Text → Except DiagnosticKind α} {readB : Text → Except DiagnosticKind β}
    {t u : Text} {a : α} {b : β} (ha : readA t = .ok a) (hb : readB u = .ok b) (mk : α → β → Instr) :
    formTwo readA readB mk [t, u] = .ok (mk a b) := by
  simp only [formTwo, ha, hb]
  rfl

theorem ofNat_toNat_byte (b : Byte) : BitVec.ofNat 8 b.toNat = b := by
  rw [BitVec.ofNat_toNat, BitVec.setWidth_eq]

/-- Settles O59: each row reads the operands of its form back. -/
theorem disassemblyReadsBack : Obligations.DisassemblyReadsBack := by
  intro i labels h
  cases i with
  | nop | halt => exact readInstr_disassemble h rfl labels
  | conj rd | inv rd => exact (readInstr_disassemble h rfl labels).trans (formOne_ok (readReg_regText rd) _)
  | prom m | demt m | demx m | dema m | demm m =>
    exact (readInstr_disassemble h rfl labels).trans (formOne_ok (readMode_modeText (of_decide_eq_true h)) _)
  | mov rd rs | mul rd rs | div rd rs | xor rd rs | mix rd rs =>
    exact (readInstr_disassemble h rfl labels).trans (formTwo_ok (readReg_regText rd) (readReg_regText rs) _)
  | ldi rd imm =>
    refine (readInstr_disassemble h rfl labels).trans
      ((formTwo_ok (readReg_regText rd) (readImm8_imm8Text imm.isLt) _).trans ?_)
    rw [ofNat_toNat_byte]
  | pow rd n | root rd n =>
    exact (readInstr_disassemble h rfl labels).trans
      (formTwo_ok (readReg_regText rd) (readImm8_imm8Text (of_decide_eq_true h)) _)
  | clrf mask =>
    refine (readInstr_disassemble h rfl labels).trans ((formOne_ok (readImm8_imm8Text mask.isLt) _).trans ?_)
    rw [ofNat_toNat_byte]
  | jmp a | jz a | jnz a =>
    exact (readInstr_disassemble h rfl labels).trans (formOne_ok (readAddr_addrText labels a) _)

/-! ## Several instances (R42, R272) -/

theorem getElem?_set_of_some {ms : Instances} {k : Nat} {s : State} (hs : ms[k]? = some s) (t : State) :
    (ms.set k t)[k]? = some t := by
  obtain ⟨hk, -⟩ := List.getElem?_eq_some_iff.mp hs
  exact List.getElem?_set_self hk

theorem stepAt_of_next {ms : Instances} {k : Nat} {s t : State} (hs : ms[k]? = some s) (hstep : step s = .next t) :
    ms.stepAt k = ms.set k t := by
  simp only [Instances.stepAt, hs, hstep]

theorem stepAt_of_stopped {ms : Instances} {k : Nat} {s : State} (hs : ms[k]? = some s)
    (hstop : ∀ t, step s ≠ .next t) : ms.stepAt k = ms := by
  simp only [Instances.stepAt, hs]
  cases hstep : step s with
  | next t => exact absurd hstep (hstop t)
  | fault | refused => rfl

/-- A step sets the place of the machine that takes it, or nothing. -/
theorem stepAt_cases (ms : Instances) (k : Nat) : ms.stepAt k = ms ∨ ∃ t, ms.stepAt k = ms.set k t := by
  cases hs : ms[k]? with
  | none => left; simp only [Instances.stepAt, hs]
  | some s =>
    by_cases hnext : ∃ t, step s = .next t
    · obtain ⟨t, hstep⟩ := hnext
      exact .inr ⟨t, stepAt_of_next hs hstep⟩
    · exact .inl (stepAt_of_stopped hs (not_exists.mp hnext))

theorem hostAt_of_some {ms : Instances} {k : Nat} {s : State} (hs : ms[k]? = some s) (op : HostOp) :
    ms.hostAt k op = ms.set k (hostStep op s).2 := by
  simp only [Instances.hostAt, hs]

/-- A host operation sets the place of the machine it is done on, or, where there is none, nothing. -/
theorem hostAt_cases (ms : Instances) (k : Nat) (op : HostOp) :
    ms.hostAt k op = ms ∨ ∃ t, ms.hostAt k op = ms.set k t := by
  cases hs : ms[k]? with
  | none => left; simp only [Instances.hostAt, hs]
  | some s => exact .inr ⟨_, hostAt_of_some hs op⟩

/-- Setting one place in the list, or nothing, keeps every other place. -/
theorem getElem?_of_set_or_same {ms ms' : Instances} {k j : Nat} (h : ms' = ms ∨ ∃ t, ms' = ms.set k t) (hj : j ≠ k) :
    ms'[j]? = ms[j]? := by
  rcases h with rfl | ⟨t, rfl⟩
  · rfl
  · exact List.getElem?_set_ne hj.symm

/-- Settles O60: a step or a host operation sets the place of its own machine, to what that machine's own state
gives. -/
theorem instancesShareNothing : Obligations.InstancesShareNothing := by
  refine fun ms k op => ⟨fun s hs => ⟨fun t hstep => ?_, fun hstop => ?_, ?_⟩, fun j hj => ?_⟩
  · rw [stepAt_of_next hs hstep, getElem?_set_of_some hs]
  · rw [stepAt_of_stopped hs hstop, hs]
  · rw [hostAt_of_some hs, getElem?_set_of_some hs]
  · exact ⟨getElem?_of_set_or_same (stepAt_cases ms k) hj, getElem?_of_set_or_same (hostAt_cases ms k op) hj⟩

end Sys2Proof.Machine
end
